-- ==== Sys2Proof/Word.lean ====
section
/-!
DEFINITION. The two element widths of the engine as Lean types (00_scope R7, R9): a byte and a
64-bit word. All values are unsigned.
-/

namespace Sys2Proof

/-- An 8-bit element, one byte of a signature RAM. -/
abbrev Byte := BitVec 8

/-- A 64-bit value: a register, a command word, a quadword element, the data of a transaction. -/
abbrev Word := BitVec 64

end Sys2Proof
end

