-- ==== Sys2Proof/Config.lean ====
section
/-!
DEFINITION. What an implementation fixes (00_scope R8), the hardware's enumerations, and the free
values: what the spec calls unspecified ('any value', 93_implementation_defined).
-/

namespace Sys2Proof

/-- The signature an INVALID_LENGTH or CAPACITY error refers to: STATUS.EOPND (10_state R29). -/
inductive Side where
  | a
  | b
deriving DecidableEq, Repr, Inhabited

/-- The three RAMs (10_state R34 to R36). -/
inductive RamId where
  | aRam
  | bRam
  | wRam
deriving DecidableEq, Repr, Inhabited

/-- The command error codes the engine writes (60_exceptions R211). Codes 5 to 15 are reserved and
never written (10_state R28), so no constructor stands for them. -/
inductive ErrCode where
  | noError
  | lengthMismatch
  | invalidLength
  | illegalCommand
  | capacity
deriving DecidableEq, Repr, Inhabited

/-- The two models that 70_reset_and_hazards R245 allows of a write to an input while BUSY: record
the fault InputWrittenWhileBusy and stop, or go on and give the completion any value.
DESIGN CHOICE, log 6. -/
inductive HazardPolicy where
  | stop
  | goOn
deriving DecidableEq, Repr, Inhabited

/-- The implementation parameters a machine carries. MAX_BYTES is 00_scope R8's; it is part of the
state, so that a claim about every state is a claim about every capacity (log 1). -/
structure Config where
  maxBytes : Nat
  hazardPolicy : HazardPolicy
deriving DecidableEq, Repr

/-- 00_scope R8: a multiple of 8, with 64 ≤ MAX_BYTES ≤ 4096. -/
abbrev Config.Legal (c : Config) : Prop :=
  c.maxBytes % 8 = 0 ∧ 64 ≤ c.maxBytes ∧ c.maxBytes ≤ 4096

/-- The reference configuration of 00_scope R8 and 95_test_vectors: MAX_BYTES = 4096. DESIGN CHOICE,
log 1 and log 6: it is only the configuration of the reset state. -/
def Config.reference : Config := { maxBytes := 4096, hazardPolicy := .goOn }

/-- 20_memory R80, 70_reset_and_hazards R242: what an unwritten byte of a RAM reads as. Draw number,
RAM, byte index: any value, fresh at each read. No body: nothing can be proved of it (log 4). -/
opaque Config.anyByte : Nat → RamId → Nat → Byte

/-- 70_reset_and_hazards R246, R247: what a host read of RESULT while BUSY, or of W_RAM while a
TOWORDS is in flight, returns at a draw (log 5). -/
opaque Config.anyReadWord : Nat → Word

/-- 70_reset_and_hazards R245: what a TOWORDS whose inputs were written while BUSY leaves in a byte of
W_RAM. Draw number, byte index (log 8). -/
opaque Config.anyConverted : Nat → Nat → Byte

/-- 70_reset_and_hazards R245: the RESULT of a command whose inputs were written while BUSY (log 6). -/
opaque Config.anyResult : Nat → Word

/-- 70_reset_and_hazards R245: the ERR of a command whose inputs were written while BUSY. DEDUCED
from 10_state R28: it stays within the codes the engine ever writes (log 7). -/
opaque Config.anyErr : Nat → ErrCode

/-- 70_reset_and_hazards R245: the EOPND of a command whose inputs were written while BUSY (log 6). -/
opaque Config.anyEopnd : Nat → Side

end Sys2Proof
end

