-- ==== Sys2Proof/Syntax.lean ====
section
/-!
DEFINITION. The commands of the engine (30_encoding R100), one constructor per row of the opcode
table. A command carries no operand but its unroll hint; its operands are registers and RAMs
(30_encoding R99).
-/

namespace Sys2Proof

/-- The unroll factor coded by the field U (30_encoding R94): k = 1, 2, 3, 4, 6, 8, 16, full. -/
inductive Unroll where
  | k1
  | k2
  | k3
  | k4
  | k6
  | k8
  | k16
  | full
deriving DecidableEq, Repr

/-- The nine commands. -/
inductive Instr where
  /-- POPCNT8 (40_popcount R123). -/
  | popcnt8
  /-- POPCNT64 (40_popcount R124). -/
  | popcnt64
  /-- DIST.B (41_distance_variable R146). -/
  | distB (u : Unroll)
  /-- DIST.Q (41_distance_variable R147). -/
  | distQ (u : Unroll)
  /-- DIST32B (42_distance_fixed R171). -/
  | dist32B (u : Unroll)
  /-- DIST4Q (42_distance_fixed R172). -/
  | dist4Q (u : Unroll)
  /-- DIST8Q (42_distance_fixed R173). -/
  | dist8Q (u : Unroll)
  /-- DISTB2Q (43_width_conversion R193). -/
  | distB2Q (u : Unroll)
  /-- TOWORDS (43_width_conversion R192). -/
  | toWords (u : Unroll)
deriving DecidableEq, Repr

end Sys2Proof
end

