-- ==== Sys2Proof/Machine/State.lean ====
section
/-!
DEFINITION. The machine's state as plain data: the registers and RAMs of 10_state R20, the host's
side of the port (20_memory R82), and which agent moves next (20_memory R73). Also the reasons a
step stops, and the state after reset (70_reset_and_hazards R240).
-/

namespace Sys2Proof.Machine

/-- A RAM's written bytes, addresses strictly rising. A byte not listed has not been written since
reset: it has no value of its own, and a read of it draws a free value (20_memory R80, log 4). -/
abbrev Memory := List Host.Cell

/-- The canonical form: addresses strictly rising. -/
abbrev Memory.wf (m : Memory) : Prop := (m.map Prod.fst).Pairwise (· < ·)

/-- Every listed byte lies inside a RAM of `cap` bytes (10_state R34 to R36). -/
abbrev Memory.below (m : Memory) (cap : Nat) : Prop := ∀ c ∈ m, c.1 < cap

/-- The two agents (00_scope R6). -/
inductive Agent where
  | host
  | engine
deriving DecidableEq, Repr

/-- What the host does in one step: the statements of 30_encoding R104 with the transaction's width
in bits (20_memory R64), and the pin `rst` (20_memory R82). -/
inductive HostStmt where
  /-- `RD off`: a read transaction of `bits` bits. -/
  | rd (off : Nat) (bits : Nat)
  /-- `WR off, v`: a write transaction of `bits` bits. -/
  | wr (off : Nat) (bits : Nat) (v : Word)
  /-- `POLL`: read STATUS until BUSY = 0, one read a host step. -/
  | poll
  /-- Drive `rst` to the level: true asserts reset, false releases it. -/
  | rst (level : Bool)
deriving DecidableEq, Repr

/-- What the port answers a transaction: `rdata` and `err` of 20_memory R81. -/
inductive Reply where
  | read (data : Word) (err : Bool)
  | write (err : Bool)
deriving DecidableEq, Repr

/-- The location a legal transaction reaches (20_memory R61): a register, a byte offset in the A_RAM
or B_RAM window, or a word index in the W_RAM window. -/
inductive Target where
  | params
  | cmd
  | status
  | lenA
  | lenB
  | operand
  | result
  | aRam (j : Nat)
  | bRam (j : Nat)
  | wRam (k : Nat)
deriving DecidableEq, Repr

/-- The value `(err, eopnd, res, wr)` of Outcome (10_state R41): what a completion writes. -/
structure Verdict where
  err : ErrCode
  eopnd : Side
  res : Word
  wr : List (Nat × Word)
deriving DecidableEq, Repr

/-- The reasons a step stops with a fault. -/
inductive Fault where
  /-- 70_reset_and_hazards R245: raised by a host write of LEN_A, LEN_B, OPERAND, A_RAM or B_RAM while
  BUSY, in a configuration whose hazard policy is `stop`. Safe: the hardware goes on (log 6). -/
  | inputWrittenWhileBusy
deriving DecidableEq, Repr

/-- The reasons a step is refused. -/
inductive Refusal where
  /-- Raised by an arm of `exec` that has no meaning yet. Safe. -/
  | notModelled (mnemonic : String)
  /-- 70_reset_and_hazards R240 and 93_implementation_defined U17: raised by a host transaction issued
  while `rst` is asserted; the spec gives it no step. Safe (log 9). -/
  | transactionInReset
deriving DecidableEq, Repr

/-- The machine. STATUS is held by its fields (10_state R24); a reserved bit reads 0 and is not held. -/
structure State where
  /-- The implementation's parameters; PARAMS reads MAX_BYTES (10_state R22). -/
  cfg : Config
  /-- CMD, the last accepted command word (10_state R23). -/
  cmd : Word
  /-- STATUS.BUSY (10_state R25). -/
  busy : Bool
  /-- STATUS.DONE (10_state R26). -/
  done : Bool
  /-- STATUS.OVERRUN (10_state R27). -/
  overrun : Bool
  /-- STATUS.ERR (10_state R28). -/
  err : ErrCode
  /-- STATUS.EOPND (10_state R29). -/
  eopnd : Side
  /-- LEN_A.N (10_state R30). -/
  lenA : BitVec 32
  /-- LEN_B.N (10_state R31). -/
  lenB : BitVec 32
  /-- OPERAND (10_state R32). -/
  operand : Word
  /-- RESULT (10_state R33). -/
  result : Word
  /-- A_RAM (10_state R34). -/
  aram : Memory
  /-- B_RAM (10_state R35). -/
  bram : Memory
  /-- W_RAM, word k as its bytes 8k to 8k+7 (10_state R36, log 16). -/
  wram : Memory
  /-- The level of the pin `rst` (20_memory R81, 70_reset_and_hazards R240). -/
  rst : Bool
  /-- The recorded fault InputWrittenWhileBusy of the last accepted command (70_reset_and_hazards
  R245, log 6). -/
  inputHazard : Bool
  /-- The host's statements still to be issued, oldest first (20_memory R82, log 3). -/
  script : List HostStmt
  /-- Which agent moves in the coming steps (20_memory R73, log 2). -/
  turns : List Agent
  /-- What the port has answered the host, newest first (20_memory R62, log 3). -/
  replies : List Reply
  /-- How many draws of free values have been made (20_memory R80, log 4). -/
  draws : Nat
deriving DecidableEq, Repr

/-- The machine of a configuration right after reset (70_reset_and_hazards R240 to R243): every
register 0, no RAM byte written. The host has issued nothing (log 11). -/
def State.resetOf (c : Config) : State :=
  { cfg := c
    cmd := 0
    busy := false
    done := false
    overrun := false
    err := .noError
    eopnd := .a
    lenA := 0
    lenB := 0
    operand := 0
    result := 0
    aram := []
    bram := []
    wram := []
    rst := false
    inputHazard := false
    script := []
    turns := []
    replies := []
    draws := 0 }

/-- The machine right after reset, in the reference configuration (log 1). -/
def State.reset : State := State.resetOf .reference

end Sys2Proof.Machine
end

