-- ==== Sys2Proof/Machine/Ops.lean ====
section
/-!
DEFINITION. The named operations over RAMs and registers: byte and word access (00_scope R10), the
accept (10_state R38), the completion (R40) and `raise` (60_exceptions R212), the unspecified
completion of a hazard (70_reset_and_hazards R245), reset (R240), and the host's reply.
-/

namespace Sys2Proof.Machine

/-- Byte j of a RAM if it has been written since reset. -/
def Memory.lookup : Memory → Nat → Option Byte
  | [], _ => none
  | (k, b) :: m, j => if k = j then some b else Memory.lookup m j

/-- Writes byte j, keeping the addresses strictly rising. -/
def Memory.write : Memory → Nat → Byte → Memory
  | [], j, b => [(j, b)]
  | (k, x) :: m, j, b =>
    if j < k then (j, b) :: (k, x) :: m
    else if j = k then (j, b) :: m
    else (k, x) :: Memory.write m j b

/-- `MemWrite(ram, j, n, v)` of 00_scope R10: byte j+t becomes v[8t+7:8t], for t < n. -/
def Memory.writeBytes (m : Memory) (j : Nat) : Nat → Word → Memory
  | 0, _ => m
  | n + 1, v => (Memory.writeBytes m j n v).write (j + n) (v.extractLsb' (8 * n) 8)

/-- The writes `(k, v) in wr` of 10_state R40: word k becomes v. -/
def Memory.writeWords : Memory → List (Nat × Word) → Memory
  | m, [] => m
  | m, (k, v) :: wr => Memory.writeWords (m.writeBytes (8 * k) 8 v) wr

/-- A RAM of n bytes, every one of them written. -/
def Memory.ofBytes (bytes : Nat → Byte) (n : Nat) : Memory :=
  (List.range n).map fun j => (j, bytes j)

/-- A RAM as the bytes one read finds: a written byte's value, and a free value for each byte that
has not been written (20_memory R80). -/
def Memory.view (m : Memory) (free : Nat → Byte) (j : Nat) : Byte :=
  (m.lookup j).getD (free j)

/-- `ARAM[j]` as the current read finds it (10_state R34). -/
def State.aByte (s : State) : Nat → Byte := s.aram.view (Config.anyByte s.draws .aRam)

/-- `BRAM[j]` as the current read finds it (10_state R35). -/
def State.bByte (s : State) : Nat → Byte := s.bram.view (Config.anyByte s.draws .bRam)

/-- W_RAM's bytes as the current read finds them (10_state R36, 20_memory R80). -/
def State.wByte (s : State) : Nat → Byte := s.wram.view (Config.anyByte s.draws .wRam)

/-- `MemRead(ram, j, 8)` of 00_scope R10: byte j is bits 7:0. -/
def memWord (ram : Nat → Byte) (j : Nat) : Word :=
  (ram (j + 7) ++ ram (j + 6) ++ ram (j + 5) ++ ram (j + 4)
    ++ ram (j + 3) ++ ram (j + 2) ++ ram (j + 1) ++ ram j : BitVec 64)

/-- RESULT on every error, 0xFFFF_FFFF_FFFF_FFFF (60_exceptions R212). -/
def errorResult : Word := BitVec.allOnes 64

/-- `raise E(opnd)` (60_exceptions R212). -/
def raise (e : ErrCode) (opnd : Side) : Verdict :=
  { err := e, eopnd := opnd, res := errorResult, wr := [] }

/-- `complete(zext_64(n))` with the W_RAM writes `wr` (10_state R41, 00_scope R10). -/
def succeed (n : Nat) (wr : List (Nat × Word)) : Verdict :=
  { err := .noError, eopnd := .a, res := BitVec.ofNat 64 n, wr := wr }

/-- Accept of the command word v (10_state R38). A recorded hazard belonged to the command before. -/
def State.accept (s : State) (v : Word) : State :=
  { s with
    cmd := v, busy := true, done := false, overrun := false
    err := .noError, eopnd := .a, inputHazard := false }

/-- The completion step's writes (10_state R40). It makes one draw: each RAM byte the command reads
has its own free value in it (20_memory R80). -/
def State.complete (s : State) (v : Verdict) : State :=
  { s with
    wram := s.wram.writeWords v.wr, result := v.res, err := v.err, eopnd := v.eopnd
    busy := false, done := true, draws := s.draws + 1 }

/-- The completion of a command whose inputs were written while BUSY (70_reset_and_hazards R245):
RESULT, ERR and EOPND are free values; for TOWORDS (`clobbers`) every W_RAM word is written with a
free value, drawn once, so that later reads of it agree (20_memory R71, log 8). BUSY and DONE behave
as ever. -/
def State.completeUnspecified (s : State) (clobbers : Bool) : State :=
  { s with
    wram := if clobbers then Memory.ofBytes (Config.anyConverted s.draws) s.cfg.maxBytes
      else s.wram
    result := Config.anyResult s.draws, err := Config.anyErr s.draws
    eopnd := Config.anyEopnd s.draws
    busy := false, done := true, draws := s.draws + 1 }

/-- The Engine's completion step with the verdict v (10_state R40), or with any value after an input
hazard (70_reset_and_hazards R245). -/
def finish (clobbers : Bool) (v : Verdict) (s : State) : Host.Outcome State Fault Refusal :=
  .next (if s.inputHazard then s.completeUnspecified clobbers else s.complete v)

/-- Every register takes its reset value, a command in flight is abandoned, and no RAM byte counts
as written (70_reset_and_hazards R240 to R242). The parameters, the host's side and the draws stay. -/
def State.applyReset (s : State) : State :=
  { s with
    cmd := 0, busy := false, done := false, overrun := false
    err := .noError, eopnd := .a, lenA := 0, lenB := 0, operand := 0, result := 0
    aram := [], bram := [], wram := [], inputHazard := false }

/-- The port answers the host. -/
def State.reply (s : State) (r : Reply) : State := { s with replies := r :: s.replies }

end Sys2Proof.Machine
end

