-- ==== Sys2Proof/Machine/Operands.lean ====
section
/-!
DEFINITION. The operand forms and the arithmetic of the commands: elements of a signature (00_scope
R10, R11), the population count (40_popcount R120), the distance (41_distance_variable R140, R142),
the capacity (R145) and the conversion (43_width_conversion R190).
-/

namespace Sys2Proof.Machine

/-- The two element widths (00_scope R7, 30_encoding R93). -/
inductive Width where
  | byte
  | quad
deriving DecidableEq, Repr

/-- w in bits. -/
def Width.bits : Width → Nat
  | .byte => 8
  | .quad => 64

/-- w in bytes. -/
def Width.bytes : Width → Nat
  | .byte => 1
  | .quad => 8

/-- `Σ_{i<n} f(i)`, 0 when n = 0 (00_scope R9). -/
def sumBelow (f : Nat → Nat) : Nat → Nat
  | 0 => 0
  | n + 1 => sumBelow f n + f n

/-- `popcount_w(x) = Σ_{i<w} x[i]` (40_popcount R120). -/
def popcount (bits : Nat) (x : Word) : Nat := sumBelow (fun i => (x.getLsbD i).toNat) bits

/-- `elem(ram, w, i)`: element i of a signature of width w, zero-extended (00_scope R10). -/
def elem (w : Width) (ram : Nat → Byte) (i : Nat) : Word :=
  match w with
  | .byte => (ram i).setWidth 64
  | .quad => memWord ram (8 * i)

/-- `xorpop_w(a, b) = popcount_w(a ^ b)` (41_distance_variable R140). -/
def xorpop (w : Width) (x y : Word) : Nat := popcount w.bits (x ^^^ y)

/-- `dist_w(n)` of the signatures in two RAMs (41_distance_variable R142). -/
def distance (w : Width) (a b : Nat → Byte) (n : Nat) : Nat :=
  sumBelow (fun i => xorpop w (elem w a i) (elem w b i)) n

/-- `cap_w = MAX_BYTES div (w/8)` (41_distance_variable R145). -/
def capacity (w : Width) (s : State) : Nat := s.cfg.maxBytes / w.bytes

/-- `toWords(bytes, n)[k]` (43_width_conversion R190). -/
def toWord (ram : Nat → Byte) (k : Nat) : Word := memWord ram (8 * k)

/-- The pairs `(k, toWords(bytes, 8 nw)[k])` for k < nw, in rising order (43_width_conversion R192). -/
def wordWrites (ram : Nat → Byte) : Nat → List (Nat × Word)
  | 0 => []
  | n + 1 => wordWrites ram n ++ [(n, toWord ram n)]

/-- `LEN_A[31:0]` as a count (10_state R30). -/
def State.la (s : State) : Nat := s.lenA.toNat

/-- `LEN_B[31:0]` as a count (10_state R31). -/
def State.lb (s : State) : Nat := s.lenB.toNat

end Sys2Proof.Machine
end

