-- ==== Sys2Proof/Machine/Conversion.lean ====
section
/-!
DEFINITION. The width conversion commands (43_width_conversion R192, R193). The hint U is ignored
(30_encoding R95).
-/

namespace Sys2Proof.Machine

/-- The case of Outcome for DISTB2Q (43_width_conversion R193). W_RAM is not written. -/
def bridgeVerdict (s : State) : Verdict :=
  if s.la > s.cfg.maxBytes then raise .capacity .a
  else if s.lb > s.cfg.maxBytes then raise .capacity .b
  else if s.la % 8 ≠ 0 then raise .invalidLength .a
  else if s.lb % 8 ≠ 0 then raise .invalidLength .b
  else if s.la ≠ s.lb then raise .lengthMismatch .a
  else
    succeed
      (sumBelow (fun k => popcount 64 (toWord s.aByte k ^^^ toWord s.bByte k)) (s.la / 8)) []

/-- The case of Outcome for TOWORDS (43_width_conversion R192). -/
def convertVerdict (s : State) : Verdict :=
  if s.la > s.cfg.maxBytes then raise .capacity .a
  else if s.la % 8 ≠ 0 then raise .invalidLength .a
  else succeed (s.la / 8) (wordWrites s.aByte (s.la / 8))

/-- DISTB2Q (43_width_conversion R193). -/
def execDistB2Q (_u : Unroll) (s : State) : Host.Outcome State Fault Refusal :=
  finish false (bridgeVerdict s) s

/-- TOWORDS (43_width_conversion R192). -/
def execToWords (_u : Unroll) (s : State) : Host.Outcome State Fault Refusal :=
  finish true (convertVerdict s) s

end Sys2Proof.Machine
end

