-- ==== Sys2Proof/Machine/Distance.lean ====
section
/-!
DEFINITION. The variable-length distance commands (41_distance_variable R146, R147). The hint U is
ignored (30_encoding R95).
-/

namespace Sys2Proof.Machine

/-- The case of Outcome for DIST (41_distance_variable R146, R147): the checks in the order of
60_exceptions R217, then the distance. -/
def distVerdict (w : Width) (s : State) : Verdict :=
  if s.la > capacity w s then raise .capacity .a
  else if s.lb > capacity w s then raise .capacity .b
  else if s.la ≠ s.lb then raise .lengthMismatch .a
  else succeed (distance w s.aByte s.bByte s.la) []

/-- DIST.B (41_distance_variable R146). -/
def execDistB (_u : Unroll) (s : State) : Host.Outcome State Fault Refusal :=
  finish false (distVerdict .byte s) s

/-- DIST.Q (41_distance_variable R147). -/
def execDistQ (_u : Unroll) (s : State) : Host.Outcome State Fault Refusal :=
  finish false (distVerdict .quad s) s

end Sys2Proof.Machine
end

