-- ==== Sys2Proof/Machine/FixedDistance.lean ====
section
/-!
DEFINITION. The fixed-length distance commands (42_distance_fixed R170 to R173). They read neither
LEN_A nor LEN_B and raise no error; the hint U is ignored (30_encoding R95).
-/

namespace Sys2Proof.Machine

/-- DIST32B (42_distance_fixed R171). -/
def execDist32B (_u : Unroll) (s : State) : Host.Outcome State Fault Refusal :=
  finish false (succeed (distance .byte s.aByte s.bByte 32) []) s

/-- DIST4Q (42_distance_fixed R172). -/
def execDist4Q (_u : Unroll) (s : State) : Host.Outcome State Fault Refusal :=
  finish false (succeed (distance .quad s.aByte s.bByte 4) []) s

/-- DIST8Q (42_distance_fixed R173). -/
def execDist8Q (_u : Unroll) (s : State) : Host.Outcome State Fault Refusal :=
  finish false (succeed (distance .quad s.aByte s.bByte 8) []) s

end Sys2Proof.Machine
end

