-- ==== Sys2Proof/Machine/Popcount.lean ====
section
/-!
DEFINITION. The popcount commands (40_popcount R123, R124). They raise no error.
-/

namespace Sys2Proof.Machine

/-- POPCNT8 (40_popcount R123): reads OPERAND[7:0] alone. -/
def execPopcnt8 (s : State) : Host.Outcome State Fault Refusal :=
  finish false (succeed (popcount 8 s.operand) []) s

/-- POPCNT64 (40_popcount R124). -/
def execPopcnt64 (s : State) : Host.Outcome State Fault Refusal :=
  finish false (succeed (popcount 64 s.operand) []) s

end Sys2Proof.Machine
end

