-- ==== Sys2Proof/Machine/Dispatch.lean ====
section
/-!
DEFINITION. The completion step of each command: one arm per constructor of Instr (10_state R41).
-/

namespace Sys2Proof.Machine

def exec (i : Instr) (s : State) : Host.Outcome State Fault Refusal :=
  match i with
  | .popcnt8 => Sys2Proof.Machine.execPopcnt8 s
  | .popcnt64 => Sys2Proof.Machine.execPopcnt64 s
  | .distB u => Sys2Proof.Machine.execDistB u s
  | .distQ u => Sys2Proof.Machine.execDistQ u s
  | .dist32B u => Sys2Proof.Machine.execDist32B u s
  | .dist4Q u => Sys2Proof.Machine.execDist4Q u s
  | .dist8Q u => Sys2Proof.Machine.execDist8Q u s
  | .distB2Q u => Sys2Proof.Machine.execDistB2Q u s
  | .toWords u => Sys2Proof.Machine.execToWords u s

end Sys2Proof.Machine
end

