-- ==== Sys2Proof/WellFormed.lean ====
section
/-!
DEFINITION. Which commands have a legal encoding (30_encoding R96). The only ill-formed terms are
the variable-length commands with the unroll factor "full"; W and RSV follow from the constructor,
and POPCNT carries no hint.
-/

namespace Sys2Proof

/-- 30_encoding R96: U = 7 ("full") is legal only with the fixed-length commands. -/
def Instr.wellFormed : Instr → Bool
  | .popcnt8 => true
  | .popcnt64 => true
  | .distB u => u != .full
  | .distQ u => u != .full
  | .dist32B _ => true
  | .dist4Q _ => true
  | .dist8Q _ => true
  | .distB2Q u => u != .full
  | .toWords u => u != .full

end Sys2Proof
end

