-- ==== Sys2Proof/Decode.lean ====
section
/-!
DEFINITION. The command word: its fields (30_encoding R91), its decoding (R99), the encoder written
from R91 to R94, and the decoder the host calls.
-/

namespace Sys2Proof

/-- Why a word is illegal: the classes (a) to (f) of 30_encoding R101; and a byte string too short to
hold a command word. -/
inductive Reject where
  /-- (a) RSV ≠ 0. -/
  | reservedBits
  /-- (b) OP = 0x0 or 0x8 to 0xF. -/
  | reservedOp
  /-- (c) POPCNT with U ≠ 0. -/
  | popcountUnroll
  /-- (d) DIST, DISTB2Q or TOWORDS with U = 7. -/
  | fullUnroll
  /-- (e) DIST32B, DISTB2Q or TOWORDS with W = 1. -/
  | widthNotByte
  /-- (f) DIST4Q or DIST8Q with W = 0. -/
  | widthNotQuad
  /-- Fewer than eight bytes: no command word. -/
  | truncated
deriving DecidableEq, Repr

/-- The field OP, bits 3:0 (30_encoding R91). -/
def opField (w : Word) : BitVec 4 := w.extractLsb' 0 4

/-- The field W, bit 4: true is QuadWord (30_encoding R93). -/
def wField (w : Word) : Bool := w.getLsbD 4

/-- The field U, bits 7:5 (30_encoding R94). -/
def uField (w : Word) : BitVec 3 := w.extractLsb' 5 3

/-- The field RSV, bits 63:8 (30_encoding R98). -/
def rsvField (w : Word) : BitVec 56 := w.extractLsb' 8 56

/-- The unroll factor a U value codes (30_encoding R94). -/
def Unroll.ofCode (c : BitVec 3) : Unroll :=
  match c.toNat with
  | 0 => .k1
  | 1 => .k2
  | 2 => .k3
  | 3 => .k4
  | 4 => .k6
  | 5 => .k8
  | 6 => .k16
  | _ => .full

/-- The U value of an unroll factor (30_encoding R94). -/
def Unroll.code : Unroll → BitVec 3
  | .k1 => 0
  | .k2 => 1
  | .k3 => 2
  | .k4 => 3
  | .k6 => 4
  | .k8 => 5
  | .k16 => 6
  | .full => 7

/-- A command that has a hint, with U = 7 illegal (30_encoding R96). -/
def unlessFull (u : Unroll) (i : Instr) : Except Reject Instr :=
  if u = .full then .error .fullUnroll else .ok i

/-- The cases of `decode` on OP, W and U (30_encoding R99); an illegal combination is rejected by the
name of its class in R101. -/
def decodeFields (op : BitVec 4) (quad : Bool) (u : Unroll) : Except Reject Instr :=
  match op.toNat with
  | 1 =>
    if u ≠ .k1 then .error .popcountUnroll
    else if quad then .ok .popcnt64 else .ok .popcnt8
  | 2 => if quad then unlessFull u (.distQ u) else unlessFull u (.distB u)
  | 3 => if quad then .error .widthNotByte else .ok (.dist32B u)
  | 4 => if quad then .ok (.dist4Q u) else .error .widthNotQuad
  | 5 => if quad then .ok (.dist8Q u) else .error .widthNotQuad
  | 6 => if quad then .error .widthNotByte else unlessFull u (.distB2Q u)
  | 7 => if quad then .error .widthNotByte else unlessFull u (.toWords u)
  | _ => .error .reservedOp

/-- `decode` of 30_encoding R99, total on all words. -/
def decodeWord (w : Word) : Except Reject Instr :=
  if rsvField w ≠ 0 then .error .reservedBits
  else decodeFields (opField w) (wField w) (Unroll.ofCode (uField w))

/-- Lays the fields out in a command word: RSV = 0, U, W, OP (30_encoding R91). -/
def packFields (op : BitVec 4) (quad : Bool) (u : Unroll) : Word :=
  (0#56 ++ u.code ++ BitVec.ofBool quad ++ op : BitVec 64)

/-- The command word of a command (30_encoding R92, R93, R94, R100). -/
def encode : Instr → Word
  | .popcnt8 => packFields 1 false .k1
  | .popcnt64 => packFields 1 true .k1
  | .distB u => packFields 2 false u
  | .distQ u => packFields 2 true u
  | .dist32B u => packFields 3 false u
  | .dist4Q u => packFields 4 true u
  | .dist8Q u => packFields 5 true u
  | .distB2Q u => packFields 6 false u
  | .toWords u => packFields 7 false u

/-- The eight bytes of a word on the bus, byte 0 first: data bits 8t+7:8t are byte t (20_memory R68). -/
def wordBytes (w : Word) : List Byte :=
  [w.extractLsb' 0 8, w.extractLsb' 8 8, w.extractLsb' 16 8, w.extractLsb' 24 8,
   w.extractLsb' 32 8, w.extractLsb' 40 8, w.extractLsb' 48 8, w.extractLsb' 56 8]

/-- The word at the head of a byte string, little-endian (20_memory R68; DEDUCED, log 15: the bus
order taken for a command's bytes), and the rest. -/
def takeWord : List Byte → Option (Word × List Byte)
  | b0 :: b1 :: b2 :: b3 :: b4 :: b5 :: b6 :: b7 :: rest =>
    some ((b7 ++ b6 ++ b5 ++ b4 ++ b3 ++ b2 ++ b1 ++ b0 : BitVec 64), rest)
  | _ => none

/-- Decodes the command word at the head of a byte string, and answers the rest. -/
def decodeBytes (bytes : List Byte) : Except Reject (Instr × List Byte) :=
  match takeWord bytes with
  | none => .error .truncated
  | some (w, rest) =>
    match decodeWord w with
    | .ok i => .ok (i, rest)
    | .error r => .error r

/-- The low `nbits` of `w` laid out as bytes, the least significant first, and zeros up to the eight
bytes of a command word. -/
def tableBytes (nbits w : Nat) : List Byte :=
  (List.range 8).map fun t =>
    if 8 * t < nbits then BitVec.ofNat 8 (w / 2 ^ (8 * t)) else 0#8

/-- The command the decoder reads from an opcode-table word. -/
def decodeTableWord (nbits w : Nat) : Option Instr :=
  match decodeBytes (tableBytes nbits w) with
  | .ok (i, _) => some i
  | .error _ => none

end Sys2Proof
end

