-- ==== Sys2Proof/Machine/Flags.lean ====
section
/-!
DEFINITION. STATUS and PARAMS as the host reads them (10_state R22, R24): the only flags of the
engine (R37).
-/

namespace Sys2Proof.Machine

/-- The code of an error (60_exceptions R211). -/
def errCodeBits : ErrCode → BitVec 4
  | .noError => 0
  | .lengthMismatch => 1
  | .invalidLength => 2
  | .illegalCommand => 3
  | .capacity => 4

/-- EOPND: 0 is A, 1 is B (10_state R29). -/
def sideBit : Side → Bool
  | .a => false
  | .b => true

/-- STATUS as read: BUSY bit 0, DONE bit 1, OVERRUN bit 2, ERR bits 7:4, EOPND bit 8, the rest 0
(10_state R24). -/
def State.statusWord (s : State) : Word :=
  (0#55 ++ BitVec.ofBool (sideBit s.eopnd) ++ errCodeBits s.err ++ 0#1
    ++ BitVec.ofBool s.overrun ++ BitVec.ofBool s.done ++ BitVec.ofBool s.busy : BitVec 64)

/-- PARAMS as read: MAX_BYTES in bits 31:0, the rest 0 (10_state R22). -/
def State.paramsWord (s : State) : Word := (BitVec.ofNat 32 s.cfg.maxBytes).setWidth 64

/-- LEN_A or LEN_B as read: bits 63:32 are 0 (10_state R30, R31). -/
def lenWord (n : BitVec 32) : Word := n.setWidth 64

end Sys2Proof.Machine
end

