-- ==== Sys2Proof/Machine/Port.lean ====
section
/-!
DEFINITION. The host port: the address map (20_memory R61), reads (R62) and writes (R63), bus errors
(60_exceptions R219), and the hazards of an access while a command is in flight
(70_reset_and_hazards R245 to R248).
-/

namespace Sys2Proof.Machine

/-- The three RAM windows of the address map (20_memory R61); an offset outside them is unmapped (R66). -/
def ramTarget (c : Config) (off : Nat) : Option Target :=
  if 0x1000 ≤ off ∧ off < 0x1000 + c.maxBytes then some (.aRam (off - 0x1000))
  else if 0x2000 ≤ off ∧ off < 0x2000 + c.maxBytes then some (.bRam (off - 0x2000))
  else if 0x3000 ≤ off ∧ off < 0x3000 + c.maxBytes then some (.wRam ((off - 0x3000) / 8))
  else none

/-- The address map (20_memory R61) for a transaction of `bits` bits at `off`: `none` is a bus error,
for a width that is not 64 (R64), a misaligned offset (R65) or an unmapped one (R66). -/
def target (c : Config) (off bits : Nat) : Option Target :=
  if bits ≠ 64 then none
  else if off % 8 ≠ 0 then none
  else if off = 0x000 then some .params
  else if off = 0x008 then some .cmd
  else if off = 0x010 then some .status
  else if off = 0x018 then some .lenA
  else if off = 0x020 then some .lenB
  else if off = 0x028 then some .operand
  else if off = 0x030 then some .result
  else ramTarget c off

/-- Is a TOWORDS in flight (70_reset_and_hazards R247)? -/
def State.toWordsInFlight (s : State) : Bool :=
  s.busy &&
    match decodeWord s.cmd with
    | .ok (.toWords _) => true
    | _ => false

/-- The data a legal read returns (20_memory R62). RESULT while BUSY and W_RAM while a TOWORDS is in
flight are free values (70_reset_and_hazards R246, R247). -/
def State.readTarget (s : State) : Target → Word
  | .params => s.paramsWord
  | .cmd => s.cmd
  | .status => s.statusWord
  | .lenA => lenWord s.lenA
  | .lenB => lenWord s.lenB
  | .operand => s.operand
  | .result => if s.busy then Config.anyReadWord s.draws else s.result
  | .aRam j => memWord s.aByte j
  | .bRam j => memWord s.bByte j
  | .wRam k => if s.toWordsInFlight then Config.anyReadWord s.draws else memWord s.wByte (8 * k)

/-- A host read (20_memory R62). It changes nothing but the host's replies and the draw counter; with
a bus error the data is 0 (60_exceptions R219). -/
def hostRead (off bits : Nat) (s : State) : State :=
  match target s.cfg off bits with
  | none => s.reply (.read 0 true)
  | some t => { s with draws := s.draws + 1 }.reply (.read (s.readTarget t) false)

/-- The effect of a legal write (20_memory R63). CMD is accepted (10_state R38) or dropped (R39); a
read-only location ignores the write (20_memory R67). -/
def State.writeTarget (s : State) (v : Word) : Target → State
  | .params => s
  | .cmd => if s.busy then { s with overrun := true } else s.accept v
  | .status => s
  | .lenA => { s with lenA := v.setWidth 32 }
  | .lenB => { s with lenB := v.setWidth 32 }
  | .operand => { s with operand := v }
  | .result => s
  | .aRam j => { s with aram := s.aram.writeBytes j 8 v }
  | .bRam j => { s with bram := s.bram.writeBytes j 8 v }
  | .wRam _ => s

/-- The inputs of a command, which the host must not write while BUSY (70_reset_and_hazards R245). -/
def Target.isInput : Target → Bool
  | .lenA => true
  | .lenB => true
  | .operand => true
  | .aRam _ => true
  | .bRam _ => true
  | .params => false
  | .cmd => false
  | .status => false
  | .result => false
  | .wRam _ => false

/-- A host write (20_memory R63). A write of an input while BUSY is the hazard of 70_reset_and_hazards
R245: the fault, or the write takes effect and the hazard is recorded (log 6). -/
def hostWrite (off bits : Nat) (v : Word) (s : State) : Host.Outcome State Fault Refusal :=
  match target s.cfg off bits with
  | none => .next (s.reply (.write true))
  | some t =>
    if s.busy && t.isInput then
      match s.cfg.hazardPolicy with
      | .stop => .fault .inputWrittenWhileBusy
      | .goOn => .next ({ s.writeTarget v t with inputHazard := true }.reply (.write false))
    else .next ((s.writeTarget v t).reply (.write false))

/-- One read of `POLL` (30_encoding R104): a read of STATUS, and POLL again while BUSY = 1. -/
def hostPoll (s : State) : State :=
  { hostRead 0x010 64 s with
    script := if s.statusWord.getLsbD 0 then .poll :: s.script else s.script }

/-- The pin `rst` driven to a level (70_reset_and_hazards R240): registers take their reset values
while it is asserted and once when it is released (log 10). -/
def State.driveRst (s : State) (level : Bool) : State :=
  if level || s.rst then { s.applyReset with rst := level } else s

/-- One host statement. A transaction while `rst` is asserted has no step (70_reset_and_hazards R240,
log 9). -/
def hostStmt (h : HostStmt) (s : State) : Host.Outcome State Fault Refusal :=
  match h with
  | .rst level => .next (s.driveRst level)
  | .rd off bits => if s.rst then .refused .transactionInReset else .next (hostRead off bits s)
  | .wr off bits v => if s.rst then .refused .transactionInReset else hostWrite off bits v s
  | .poll => if s.rst then .refused .transactionInReset else .next (hostPoll s)

/-- `RUN c` (30_encoding R104). -/
def runCommand (c : Word) : List HostStmt := [.wr 0x008 64 c, .poll]

/-- `SETLEN na, nb` (30_encoding R104). -/
def setLen (na nb : Word) : List HostStmt := [.wr 0x018 64 na, .wr 0x020 64 nb]

/-- The writes of LOADA and LOADB at a window's base: 64-bit words, bytes past the end taken as 0
(30_encoding R104). -/
def loadAt (base : Nat) (bytes : List Byte) : List HostStmt :=
  (List.range ((bytes.length + 7) / 8)).map fun k =>
    .wr (base + 8 * k) 64 (memWord (fun j => bytes.getD j 0) (8 * k))

/-- `LOADA bytes` (30_encoding R104). -/
def loadA (bytes : List Byte) : List HostStmt := loadAt 0x1000 bytes

/-- `LOADB bytes` (30_encoding R104). -/
def loadB (bytes : List Byte) : List HostStmt := loadAt 0x2000 bytes

end Sys2Proof.Machine
end

