-- ==== Sys2Proof/Machine/Turn.lean ====
section
/-!
DEFINITION. One move of one agent (00_scope R6): the Engine's completion step (10_state R40) or the
host's next statement, in the order `turns` gives (20_memory R73, log 2).
-/

namespace Sys2Proof.Machine

/-- The Engine's completion step (10_state R40): the command CMD holds, or ILLEGAL_COMMAND for a word
that decodes as none (60_exceptions R215). -/
def completion (s : State) : Host.Outcome State Fault Refusal :=
  match decodeWord s.cmd with
  | .ok i => exec i s
  | .error _ => finish false (raise .illegalCommand .a) s

/-- The Engine's move: it has a step only when BUSY = 1 (10_state R40). -/
def engineTurn (s : State) : Host.Outcome State Fault Refusal :=
  if s.busy then completion s else .next s

/-- The host's move: its next statement, if it has one. An idle engine holds its state
(60_exceptions R228). -/
def hostTurn (s : State) : Host.Outcome State Fault Refusal :=
  match s.script with
  | [] => .next s
  | h :: rest => hostStmt h { s with script := rest }

/-- The next move. When `turns` is used up, a busy Engine moves first, so that every accepted command
completes (10_state R42, log 2). -/
def nextTurn (s : State) : Host.Outcome State Fault Refusal :=
  match s.turns with
  | .engine :: ts => engineTurn { s with turns := ts }
  | .host :: ts => hostTurn { s with turns := ts }
  | [] => if s.busy then engineTurn s else hostTurn s

/-- The command word of an opcode-table row, with zeros above its bits. -/
def commandWord (nbits w : Nat) : Word :=
  match takeWord (tableBytes nbits w) with
  | some (v, _) => v
  | none => 0

/-- The machine with a command word just accepted (10_state R38) and the Engine to move next (log 13). -/
def placeCommand (s : State) (v : Word) : State :=
  { s.accept v with rst := false, turns := .engine :: s.turns }

end Sys2Proof.Machine
end

