-- ==== Sys2Proof/Machine/Step.lean ====
section
/-!
DEFINITION. One step of the machine, and the placing of a command where the next step runs it.
-/

namespace Sys2Proof.Machine

/-- One step: the next move of the agent whose turn it is (20_memory R73). -/
def step (s : State) : Host.Outcome State Fault Refusal := nextTurn s

/-- The command word `w` placed in CMD as an accept leaves it, the Engine to move next: the engine
fetches nothing, so this stands for the host's write of CMD (20_memory R77, log 13). -/
def State.withFetchWord (s : State) (nbits w : Nat) : State :=
  placeCommand s (commandWord nbits w)

end Sys2Proof.Machine
end

