-- ==== Sys2Proof/Machine/Assembler.lean ====
section
/-!
DEFINITION. The spec's assembler notation (30_encoding R103). It is notation alone: no step rests on
it.
-/

namespace Sys2Proof

/-- The suffix `k` of an unroll factor (30_encoding R103). -/
def Unroll.text : Unroll → String
  | .k1 => "1"
  | .k2 => "2"
  | .k3 => "3"
  | .k4 => "4"
  | .k6 => "6"
  | .k8 => "8"
  | .k16 => "16"
  | .full => "full"

/-- The mnemonic of a command (30_encoding R100). -/
def Instr.mnemonic : Instr → String
  | .popcnt8 => "POPCNT8"
  | .popcnt64 => "POPCNT64"
  | .distB _ => "DIST.B"
  | .distQ _ => "DIST.Q"
  | .dist32B _ => "DIST32B"
  | .dist4Q _ => "DIST4Q"
  | .dist8Q _ => "DIST8Q"
  | .distB2Q _ => "DISTB2Q"
  | .toWords _ => "TOWORDS"

/-- The hint of a command, where its operation takes one (30_encoding R96). -/
def Instr.hint : Instr → Option Unroll
  | .popcnt8 => none
  | .popcnt64 => none
  | .distB u => some u
  | .distQ u => some u
  | .dist32B u => some u
  | .dist4Q u => some u
  | .dist8Q u => some u
  | .distB2Q u => some u
  | .toWords u => some u

/-- A command in full notation: its mnemonic and `/k` where it takes a hint (30_encoding R103). -/
def Instr.text (i : Instr) : String :=
  match i.hint with
  | none => i.mnemonic
  | some u => i.mnemonic ++ "/" ++ u.text

/-- The unroll factors in the order of their codes (30_encoding R94). -/
def Unroll.all : List Unroll := [.k1, .k2, .k3, .k4, .k6, .k8, .k16, .full]

/-- The 54 legal commands (30_encoding R100). -/
def Instr.legal : List Instr :=
  ([Instr.popcnt8, Instr.popcnt64] ++ Unroll.all.map Instr.distB ++ Unroll.all.map Instr.distQ
    ++ Unroll.all.map Instr.dist32B ++ Unroll.all.map Instr.dist4Q
    ++ Unroll.all.map Instr.dist8Q ++ Unroll.all.map Instr.distB2Q
    ++ Unroll.all.map Instr.toWords).filter Instr.wellFormed

/-- The command word a line of assembler stands for; no suffix means `/1` (30_encoding R103). -/
def assemble (line : String) : Option Word :=
  (Instr.legal.find? fun i =>
    i.text = line || (i.mnemonic = line && (i.hint = none || i.hint = some .k1))).map encode

end Sys2Proof
end

