-- ==== Sys2Proof/Machine/Pipeline.lean ====
section
/-!
DEFINITION. The engine's inner blocks as functions, informative in the spec: the SWAR popcount tree
(40_popcount R121, R122), the lane pipeline with its accumulator (41_distance_variable R141) and the
canonical unrolled algorithm (R144). No command's meaning rests on them; that they compute the
same counts is stated for the provers.
-/

namespace Sys2Proof.Machine

/-- M1 of 40_popcount R122. -/
def maskM1 : Word := 0x5555555555555555
/-- M2 of 40_popcount R122. -/
def maskM2 : Word := 0x3333333333333333
/-- M4 of 40_popcount R122. -/
def maskM4 : Word := 0x0F0F0F0F0F0F0F0F
/-- M8 of 40_popcount R122. -/
def maskM8 : Word := 0x00FF00FF00FF00FF
/-- M16 of 40_popcount R122. -/
def maskM16 : Word := 0x0000FFFF0000FFFF
/-- M32 of 40_popcount R122. -/
def maskM32 : Word := 0x00000000FFFFFFFF

/-- One level of the tree: neighbouring fields of `d` bits added (40_popcount R122). -/
def treeLevel (mask : Word) (d : Nat) (x : Word) : Word := (x &&& mask) + ((x >>> d) &&& mask)

/-- `s4` of 40_popcount R122: the count of each byte in its own byte. -/
def treeBytes (x : Word) : Word := treeLevel maskM4 4 (treeLevel maskM2 2 (treeLevel maskM1 1 x))

/-- popcount_tree: the output `cnt[6:0]` for the input x and the width select, true for 64 bits
(40_popcount R121, R122). -/
def popcountTree (x : Word) (wsel : Bool) : BitVec 7 :=
  if wsel then
    (treeLevel maskM32 32 (treeLevel maskM16 16 (treeLevel maskM8 8 (treeBytes x)))).setWidth 7
  else ((treeBytes x).setWidth 4).setWidth 7

/-- The width of ACC for a capacity: ceil(log2(8 MAX_BYTES + 1)) bits (41_distance_variable R141). -/
def accBits (maxBytes : Nat) : Nat := Nat.clog 2 (8 * maxBytes + 1)

/-- `beat = Σ_j v_j × xorpop_w(a_j, b_j)` for the element pairs from `i`; the valid bit of a pair at
or past n is 0 (41_distance_variable R141). -/
def beat (lanes : Nat) (w : Width) (a b : Nat → Byte) (n i : Nat) : Nat :=
  sumBelow (fun j => if i + j < n then xorpop w (elem w a (i + j)) (elem w b (i + j)) else 0) lanes

/-- ACC after a number of beats of `lanes` pairs, ACC `width` bits wide and cleared to 0 at the start
(41_distance_variable R141). -/
def pipelineAcc (lanes width : Nat) (w : Width) (a b : Nat → Byte) (n : Nat) : Nat → Nat
  | 0 => 0
  | m + 1 =>
    (pipelineAcc lanes width w a b n m + beat lanes w a b n (m * lanes)) % 2 ^ width

/-- `splitRemainder(n, k) = (remainderCount, mainLoopStart)` (41_distance_variable R144). -/
def splitRemainder (n k : Nat) : Nat × Nat := (n % k, n % k)

/-- The main loop of the canonical algorithm: strides of k while i < n, k partial sums added at each
stride's end. The first argument bounds the strides (41_distance_variable R144). -/
def strideLoop (k : Nat) (w : Width) (a b : Nat → Byte) (n : Nat) : Nat → Nat → Nat → Nat
  | 0, _, acc => acc
  | fuel + 1, i, acc =>
    if i < n then
      strideLoop k w a b n fuel (i + k)
        (acc + sumBelow (fun j => xorpop w (elem w a (i + j)) (elem w b (i + j))) k)
    else acc

/-- `canonical_w(n, k)` (41_distance_variable R144). -/
def canonical (k : Nat) (w : Width) (a b : Nat → Byte) (n : Nat) : Nat :=
  strideLoop k w a b n n (splitRemainder n k).2 (distance w a b (splitRemainder n k).1)

/-- The stride an unroll factor gives a signature of n elements (30_encoding R94): "full" takes all
of a fixed length in one stride (42_distance_fixed R170). -/
def strideOf (u : Unroll) (n : Nat) : Nat :=
  match u with
  | .k1 => 1
  | .k2 => 2
  | .k3 => 3
  | .k4 => 4
  | .k6 => 6
  | .k8 => 8
  | .k16 => 16
  | .full => n

end Sys2Proof.Machine
end

