-- ==== Sys2Proof/Safety.lean ====
section
/-!
DEFINITION. The words claims are stated in: how a completion may end and what it leaves alone, which
bytes a command reads (70_reset_and_hazards R244), the Hamming distance as the glossary has it, and
the invariant of the machine.
-/

namespace Sys2Proof.Machine

/-- The outcome is a next state with the property P. -/
def Answers (o : Host.Outcome State Fault Refusal) (P : State → Prop) : Prop :=
  ∃ t, o = .next t ∧ P t

/-- What no completion changes (20_memory R70, 10_state R40): every field but STATUS's BUSY, DONE, ERR
and EOPND, RESULT, W_RAM and the model's draw counter. -/
structure CompletionKeeps (s t : State) : Prop where
  cfg : t.cfg = s.cfg
  cmd : t.cmd = s.cmd
  overrun : t.overrun = s.overrun
  lenA : t.lenA = s.lenA
  lenB : t.lenB = s.lenB
  operand : t.operand = s.operand
  aram : t.aram = s.aram
  bram : t.bram = s.bram
  rst : t.rst = s.rst
  inputHazard : t.inputHazard = s.inputHazard
  script : t.script = s.script
  turns : t.turns = s.turns
  replies : t.replies = s.replies

/-- `t` is `s` after a completion that wrote these values: BUSY = 0 and DONE = 1 with them
(10_state R40). -/
structure Completed (s t : State) (err : ErrCode) (eopnd : Side) (result : Word) : Prop where
  err : t.err = err
  eopnd : t.eopnd = eopnd
  result : t.result = result
  busy : t.busy = false
  done : t.done = true
  keeps : CompletionKeeps s t

/-- A command that succeeded with the count n and wrote no W_RAM byte. -/
def Counted (s : State) (n : Nat) (t : State) : Prop :=
  Completed s t .noError .a (BitVec.ofNat 64 n) ∧ ∀ j, t.wram.lookup j = s.wram.lookup j

/-- A command that raised an error: RESULT all ones, no W_RAM byte written (60_exceptions R212). -/
def Raised (s : State) (err : ErrCode) (eopnd : Side) (t : State) : Prop :=
  Completed s t err eopnd 0xFFFFFFFFFFFFFFFF ∧ ∀ j, t.wram.lookup j = s.wram.lookup j

/-- Bit p of the signature held in a RAM (00_scope R11). -/
def sigBit (ram : Nat → Byte) (p : Nat) : Bool := (ram (p / 8)).getLsbD (p % 8)

/-- "number of bit positions at which two equal-length bit strings differ" (00_scope, glossary): the
Hamming distance of the first n bits. -/
def hamming (a b : Nat → Byte) (n : Nat) : Nat :=
  ((Finset.range n).filter fun p => sigBit a p ≠ sigBit b p).card

/-- How many bytes of A_RAM the command reads (70_reset_and_hazards R244). -/
def bytesReadA (s : State) : Instr → Nat
  | .popcnt8 => 0
  | .popcnt64 => 0
  | .distB _ => s.la
  | .distQ _ => 8 * s.la
  | .dist32B _ => 32
  | .dist4Q _ => 32
  | .dist8Q _ => 64
  | .distB2Q _ => s.la
  | .toWords _ => s.la

/-- How many bytes of B_RAM the command reads (70_reset_and_hazards R244); TOWORDS reads none. -/
def bytesReadB (s : State) : Instr → Nat
  | .popcnt8 => 0
  | .popcnt64 => 0
  | .distB _ => s.lb
  | .distQ _ => 8 * s.lb
  | .dist32B _ => 32
  | .dist4Q _ => 32
  | .dist8Q _ => 64
  | .distB2Q _ => s.lb
  | .toWords _ => 0

/-- The first n bytes of a RAM have been written since reset. -/
abbrev Written (m : Memory) (n : Nat) : Prop := ∀ j < n, m.lookup j ≠ none

/-- The first n bytes of two RAMs have been written since reset, and are the same. -/
abbrev SameWritten (m m' : Memory) (n : Nat) : Prop :=
  ∀ j < n, m.lookup j ≠ none ∧ m'.lookup j = m.lookup j

/-- The two machines agree in the registers the command reads (10_state R41). The fixed-length commands
read none. -/
abbrev SameInputs (s s' : State) : Instr → Prop
  | .popcnt8 => s'.operand.setWidth 8 = s.operand.setWidth 8
  | .popcnt64 => s'.operand = s.operand
  | .distB _ => s'.lenA = s.lenA ∧ s'.lenB = s.lenB
  | .distQ _ => s'.lenA = s.lenA ∧ s'.lenB = s.lenB
  | .dist32B _ => True
  | .dist4Q _ => True
  | .dist8Q _ => True
  | .distB2Q _ => s'.lenA = s.lenA ∧ s'.lenB = s.lenB
  | .toWords _ => s'.lenA = s.lenA

/-- Is the command the conversion, the one that writes W_RAM (10_state R41)? -/
def isToWords : Instr → Bool
  | .toWords _ => true
  | _ => false

/-- The word is illegal (30_encoding R101). -/
def IllegalWord (w : Word) : Prop := ∃ r, decodeWord w = .error r

/-- The errors a command can raise with their conditions, in the order of 60_exceptions R217. -/
def errorCauses (s : State) : Instr → List (Bool × ErrCode × Side)
  | .popcnt8 => []
  | .popcnt64 => []
  | .distB _ =>
    [(s.cfg.maxBytes < s.la, .capacity, .a), (s.cfg.maxBytes < s.lb, .capacity, .b),
     (decide (s.la ≠ s.lb), .lengthMismatch, .a)]
  | .distQ _ =>
    [(s.cfg.maxBytes / 8 < s.la, .capacity, .a), (s.cfg.maxBytes / 8 < s.lb, .capacity, .b),
     (decide (s.la ≠ s.lb), .lengthMismatch, .a)]
  | .dist32B _ => []
  | .dist4Q _ => []
  | .dist8Q _ => []
  | .distB2Q _ =>
    [(s.cfg.maxBytes < s.la, .capacity, .a), (s.cfg.maxBytes < s.lb, .capacity, .b),
     (decide (s.la % 8 ≠ 0), .invalidLength, .a), (decide (s.lb % 8 ≠ 0), .invalidLength, .b),
     (decide (s.la ≠ s.lb), .lengthMismatch, .a)]
  | .toWords _ =>
    [(s.cfg.maxBytes < s.la, .capacity, .a), (decide (s.la % 8 ≠ 0), .invalidLength, .a)]

/-- The first error of a list whose condition holds (60_exceptions R217). -/
def firstCause : List (Bool × ErrCode × Side) → Option (ErrCode × Side)
  | [] => none
  | (holds, cause) :: rest => if holds then some cause else firstCause rest

/-- The offset is listed in no row of the map of 20_memory R61. -/
abbrev Unmapped (maxBytes off : Nat) : Prop :=
  (0x0038 ≤ off ∧ off < 0x1000) ∨ (0x1000 + maxBytes ≤ off ∧ off < 0x2000) ∨
    (0x2000 + maxBytes ≤ off ∧ off < 0x3000) ∨ 0x3000 + maxBytes ≤ off

/-- The state with LEN_A = LEN_B = n. -/
def State.withLen (s : State) (n : Nat) : State :=
  { s with lenA := BitVec.ofNat 32 n, lenB := BitVec.ofNat 32 n }

/-- The Engine has the move, and `rest` are the turns after it (10_state R40, 20_memory R73). -/
abbrev EngineMoves (s : State) (rest : List Agent) : Prop :=
  s.busy = true ∧ (s.turns = .engine :: rest ∨ (s.turns = [] ∧ rest = []))

/-- The host has the move and issues `h`; `after` and `rest` are its statements and the turns left. -/
abbrev HostMoves (s : State) (h : HostStmt) (after : List HostStmt) (rest : List Agent) : Prop :=
  s.script = h :: after ∧
    (s.turns = .host :: rest ∨ (s.turns = [] ∧ rest = [] ∧ s.busy = false))

/-- The host statement may be issued while a command is in flight (70_reset_and_hazards R245): it
writes no input, and it is no reset. -/
def HostStmt.keepsInputs (c : Config) : HostStmt → Bool
  | .rd _ _ => true
  | .poll => true
  | .rst _ => false
  | .wr off bits _ =>
    match target c off bits with
    | none => true
    | some t => !t.isInput

/-- What the location reads as is settled: it draws no free value (20_memory R80, 70_reset_and_hazards
R246, R247). -/
abbrev State.Settled (s : State) : Target → Prop
  | .params => True
  | .cmd => True
  | .status => True
  | .lenA => True
  | .lenB => True
  | .operand => True
  | .result => s.busy = false
  | .aRam j => ∀ t < 8, s.aram.lookup (j + t) ≠ none
  | .bRam j => ∀ t < 8, s.bram.lookup (j + t) ≠ none
  | .wRam k => s.toWordsInFlight = false ∧ ∀ t < 8, s.wram.lookup (8 * k + t) ≠ none

/-- The RAMs are in canonical form and inside MAX_BYTES (10_state R34 to R36). -/
abbrev State.RamsSound (s : State) : Prop :=
  (s.aram.wf ∧ s.bram.wf ∧ s.wram.wf) ∧
    s.aram.below s.cfg.maxBytes ∧ s.bram.below s.cfg.maxBytes ∧ s.wram.below s.cfg.maxBytes

/-- BUSY, DONE and what they say of the other fields (10_state R25 to R29, R33, R38): BUSY and DONE never
hold together; an in-flight command shows no error; before the first accept since reset STATUS,
CMD and RESULT are 0; while `rst` is asserted every register holds its reset value. -/
structure State.StatusSound (s : State) : Prop where
  notBoth : ¬(s.busy = true ∧ s.done = true)
  inFlight : s.busy = true → s.err = .noError ∧ s.eopnd = .a
  unused : s.busy = false → s.done = false →
    s.cmd = 0 ∧ s.overrun = false ∧ s.err = .noError ∧ s.eopnd = .a ∧ s.result = 0 ∧
      s.inputHazard = false
  inReset : s.rst = true → s.applyReset = s

/-- The last completion's values fit together (60_exceptions R211, R212, 41_distance_variable R148): a
success holds a count of at most 8 MAX_BYTES, an error holds all ones, EOPND names B only for
CAPACITY and INVALID_LENGTH, and ILLEGAL_COMMAND is reported exactly for the words that decode
calls illegal. After an input hazard the values are free, so nothing is said. -/
structure State.OutcomeSound (s : State) : Prop where
  count : s.err = .noError → s.result.toNat ≤ 8 * s.cfg.maxBytes
  allOnes : s.err ≠ .noError → s.result = errorResult
  operandB : s.eopnd = .b → s.err = .capacity ∨ s.err = .invalidLength
  illegal : s.err = .illegalCommand ↔ IllegalWord s.cmd

/-- The invariant of the machine. -/
structure State.Inv (s : State) : Prop where
  legal : s.cfg.Legal
  rams : s.RamsSound
  status : s.StatusSound
  outcome : s.done = true → s.inputHazard = false → s.OutcomeSound

end Sys2Proof.Machine
end

