-- ==== Sys2Proof/Certificates/Slice0/Obligations.lean ====
section
/-!
DEFINITION. The statements for the provers, in the order of the spec's files: the encoding, the
commands, the laws of the distance, errors and frames, the host port, hazards, reset, and the
machine as a whole.
-/

open Sys2Proof Sys2Proof.Machine

/-! ### Encoding (30_encoding) -/

/-- 30_encoding R99, R100: a word decodes to a command exactly when the command is well formed and the
word is its encoding. -/
def Obligations.DecodeInvertsEncode : Prop :=
  ∀ (w : Word) (i : Instr), decodeWord w = .ok i ↔ i.wellFormed = true ∧ encode i = w

/-- 30_encoding R90, 20_memory R68: the eight bytes of a command's word decode to the command and
leave the bytes after them. Their order is the model's, DEDUCED from R68 (log 15). -/
def Obligations.EncodedBytesDecode : Prop :=
  ∀ (i : Instr) (rest : List Byte), i.wellFormed = true →
    decodeBytes (wordBytes (encode i) ++ rest) = .ok (i, rest)

/-- 30_encoding R100: the legal command words of each mnemonic, 54 in all, and every other word
illegal. -/
def Obligations.LegalWordTable : Prop :=
  ∀ w : Word,
    (decodeWord w = .ok .popcnt8 ↔ w = 0x01) ∧
    (decodeWord w = .ok .popcnt64 ↔ w = 0x11) ∧
    ((∃ u, decodeWord w = .ok (.distB u)) ↔
      w ∈ [0x02, 0x22, 0x42, 0x62, 0x82, 0xA2, 0xC2]) ∧
    ((∃ u, decodeWord w = .ok (.distQ u)) ↔
      w ∈ [0x12, 0x32, 0x52, 0x72, 0x92, 0xB2, 0xD2]) ∧
    ((∃ u, decodeWord w = .ok (.dist32B u)) ↔
      w ∈ [0x03, 0x23, 0x43, 0x63, 0x83, 0xA3, 0xC3, 0xE3]) ∧
    ((∃ u, decodeWord w = .ok (.dist4Q u)) ↔
      w ∈ [0x14, 0x34, 0x54, 0x74, 0x94, 0xB4, 0xD4, 0xF4]) ∧
    ((∃ u, decodeWord w = .ok (.dist8Q u)) ↔
      w ∈ [0x15, 0x35, 0x55, 0x75, 0x95, 0xB5, 0xD5, 0xF5]) ∧
    ((∃ u, decodeWord w = .ok (.distB2Q u)) ↔
      w ∈ [0x06, 0x26, 0x46, 0x66, 0x86, 0xA6, 0xC6]) ∧
    ((∃ u, decodeWord w = .ok (.toWords u)) ↔
      w ∈ [0x07, 0x27, 0x47, 0x67, 0x87, 0xA7, 0xC7]) ∧
    (IllegalWord w ∨ ∃ i, decodeWord w = .ok i) ∧
    (Instr.legal.map encode).Nodup ∧ (Instr.legal.map encode).length = 54 ∧
    (w ∈ Instr.legal.map encode ↔ ¬ IllegalWord w)

/-- 30_encoding R101: the illegal words are those of the classes (a) to (f), read off the bits of the
word. -/
def Obligations.IllegalWordClasses : Prop :=
  ∀ w : Word,
    let rsv := w.toNat / 2 ^ 8
    let u := w.toNat / 2 ^ 5 % 2 ^ 3
    let quad := w.toNat / 2 ^ 4 % 2
    let op := w.toNat % 2 ^ 4
    IllegalWord w ↔
      rsv ≠ 0 ∨ op = 0 ∨ 8 ≤ op ∨ (op = 1 ∧ u ≠ 0) ∨ ((op = 2 ∨ op = 6 ∨ op = 7) ∧ u = 7) ∨
        ((op = 3 ∨ op = 6 ∨ op = 7) ∧ quad = 1) ∨ ((op = 4 ∨ op = 5) ∧ quad = 0)

/-- 30_encoding R100, R103: words of the table, one of each mnemonic, and the assembler examples. -/
def Obligations.TableWordsDecode : Prop :=
  decodeTableWord 64 0x01 = some .popcnt8 ∧ decodeTableWord 64 0x11 = some .popcnt64 ∧
    decodeTableWord 64 0xA2 = some (.distB .k8) ∧ decodeTableWord 64 0x72 = some (.distQ .k4) ∧
    decodeTableWord 64 0xE3 = some (.dist32B .full) ∧ decodeTableWord 64 0x94 = some (.dist4Q .k6) ∧
    decodeTableWord 64 0xD5 = some (.dist8Q .k16) ∧ decodeTableWord 64 0x46 = some (.distB2Q .k3) ∧
    decodeTableWord 64 0x27 = some (.toWords .k2) ∧
    decodeTableWord 64 0xE2 = none ∧ decodeTableWord 64 0x8000000000000011 = none ∧
    assemble "DIST.Q/4" = some 0x72 ∧ assemble "DIST32B/full" = some 0xE3 ∧
    assemble "DIST.Q" = some 0x12

/-! ### A step of an agent (10_state, 20_memory) -/

/-- 10_state R40, R41: when the Engine has the move and CMD decodes to a command, the step is that
command's completion, with the turn used up (the list of turns is the model's, log 2). -/
def Obligations.StepRunsTheCommand : Prop :=
  ∀ (s : State) (rest : List Agent) (i : Instr),
    EngineMoves s rest → decodeWord s.cmd = .ok i → step s = exec i { s with turns := rest }

/-- 60_exceptions R215: when the Engine has the move and CMD decodes to nothing, the step is a
completion with ILLEGAL_COMMAND and EOPND = 0, whatever the operands hold; and no command raises it. -/
def Obligations.IllegalCommandCompletes : Prop :=
  (∀ (s : State) (rest : List Agent), EngineMoves s rest → s.inputHazard = false →
    IllegalWord s.cmd →
    Answers (step s) (Raised { s with turns := rest } .illegalCommand .a)) ∧
  ∀ (i : Instr) (s : State), s.inputHazard = false →
    Answers (exec i s) fun t => t.err ≠ .illegalCommand

/-- 20_memory R73, 30_encoding R104: when the host has the move, the step is its next statement, with
the turn and the statement used up (script and turns are the model's, logs 2 and 3). -/
def Obligations.StepIssuesTheStatement : Prop :=
  ∀ (s : State) (h : HostStmt) (after : List HostStmt) (rest : List Agent),
    HostMoves s h after rest → step s = hostStmt h { s with turns := rest, script := after }

/-- 60_exceptions R228, 10_state R40, 20_memory R71: an idle engine holds its state: with BUSY = 0 the
Engine has no step, and with nothing from the host either nothing changes but the turn used up. That a
turn is used up with nothing done is the model's choice (log 2). -/
def Obligations.IdleEngineHoldsItsState : Prop :=
  ∀ (s : State) (rest : List Agent), s.busy = false →
    (s.turns = .engine :: rest → step s = .next { s with turns := rest }) ∧
    (s.script = [] → s.turns = .host :: rest → step s = .next { s with turns := rest }) ∧
    (s.script = [] → s.turns = [] → step s = .next s)

/-! ### Population count (40_popcount) -/

/-- 40_popcount R123: POPCNT8, the number of set bits of OPERAND[7:0]. -/
def Obligations.Popcnt8Completes : Prop :=
  (∀ w : Word, decodeWord w = .ok .popcnt8 ↔ w = 0x01) ∧
  ∀ s : State, s.inputHazard = false →
    Answers (exec .popcnt8 s)
      (Counted s ((Finset.range 8).filter fun i => s.operand.getLsbD i = true).card)

/-- 40_popcount R124: POPCNT64, the number of set bits of OPERAND. -/
def Obligations.Popcnt64Completes : Prop :=
  (∀ w : Word, decodeWord w = .ok .popcnt64 ↔ w = 0x11) ∧
  ∀ s : State, s.inputHazard = false →
    Answers (exec .popcnt64 s)
      (Counted s ((Finset.range 64).filter fun i => s.operand.getLsbD i = true).card)

/-- 40_popcount R125: the laws of the population count, and the width law they give. -/
def Obligations.PopcountLaws : Prop :=
  (∀ (w : Width) (x : Word),
    popcount w.bits x ≤ w.bits ∧ popcount w.bits 0 = 0 ∧
    popcount w.bits (BitVec.ofNat 64 (2 ^ w.bits - 1)) = w.bits ∧
    popcount w.bits x + popcount w.bits (~~~x) = w.bits) ∧
  (∀ x : Word, popcount 64 x =
    ∑ t ∈ Finset.range 8, popcount 8 ((x.extractLsb' (8 * t) 8).setWidth 64)) ∧
  ∀ (a b : Nat → Byte) (n : Nat), distance .quad a b n = distance .byte a b (8 * n)

/-- 40_popcount R121, R122: the masking-and-shifting tree counts what R120 counts, on every input. -/
def Obligations.PopcountTreeCounts : Prop :=
  ∀ x : Word, (popcountTree x true).toNat = popcount 64 x ∧
    (popcountTree x false).toNat = popcount 8 x

/-! ### Distance (41_distance_variable, 42_distance_fixed, 43_width_conversion) -/

/-- 41_distance_variable R142: the distance is the sum of the element counts, 0 for the empty
signature, and the number of bit positions at which the signatures differ. -/
def Obligations.DistanceIsHammingDistance : Prop :=
  ∀ (w : Width) (a b : Nat → Byte) (n : Nat),
    distance w a b n =
      ∑ i ∈ Finset.range n, popcount w.bits (elem w a i ^^^ elem w b i) ∧
    distance w a b 0 = 0 ∧ distance w a b n = hamming a b (n * w.bits)

/-- 41_distance_variable R146: DIST.B. -/
def Obligations.DistBCompletes : Prop :=
  (∀ w : Word, (∃ u, decodeWord w = .ok (.distB u)) ↔
    w ∈ [0x02, 0x22, 0x42, 0x62, 0x82, 0xA2, 0xC2]) ∧
  ∀ (u : Unroll) (s : State), s.inputHazard = false →
    (s.la ≤ s.cfg.maxBytes → s.lb = s.la →
      Answers (exec (.distB u) s) (Counted s (hamming s.aByte s.bByte (8 * s.la)))) ∧
    (s.cfg.maxBytes < s.la → Answers (exec (.distB u) s) (Raised s .capacity .a)) ∧
    (s.la ≤ s.cfg.maxBytes → s.cfg.maxBytes < s.lb →
      Answers (exec (.distB u) s) (Raised s .capacity .b)) ∧
    (s.la ≤ s.cfg.maxBytes → s.lb ≤ s.cfg.maxBytes → s.la ≠ s.lb →
      Answers (exec (.distB u) s) (Raised s .lengthMismatch .a))

/-- 41_distance_variable R147: DIST.Q. -/
def Obligations.DistQCompletes : Prop :=
  (∀ w : Word, (∃ u, decodeWord w = .ok (.distQ u)) ↔
    w ∈ [0x12, 0x32, 0x52, 0x72, 0x92, 0xB2, 0xD2]) ∧
  ∀ (u : Unroll) (s : State), s.inputHazard = false →
    (s.la ≤ s.cfg.maxBytes / 8 → s.lb = s.la →
      Answers (exec (.distQ u) s) (Counted s (hamming s.aByte s.bByte (64 * s.la)))) ∧
    (s.cfg.maxBytes / 8 < s.la → Answers (exec (.distQ u) s) (Raised s .capacity .a)) ∧
    (s.la ≤ s.cfg.maxBytes / 8 → s.cfg.maxBytes / 8 < s.lb →
      Answers (exec (.distQ u) s) (Raised s .capacity .b)) ∧
    (s.la ≤ s.cfg.maxBytes / 8 → s.lb ≤ s.cfg.maxBytes / 8 → s.la ≠ s.lb →
      Answers (exec (.distQ u) s) (Raised s .lengthMismatch .a))

/-- 42_distance_fixed R171: DIST32B, whatever LEN_A and LEN_B hold. -/
def Obligations.Dist32BCompletes : Prop :=
  (∀ w : Word, (∃ u, decodeWord w = .ok (.dist32B u)) ↔
    w ∈ [0x03, 0x23, 0x43, 0x63, 0x83, 0xA3, 0xC3, 0xE3]) ∧
  ∀ (u : Unroll) (s : State), s.inputHazard = false →
    Answers (exec (.dist32B u) s) (Counted s (hamming s.aByte s.bByte 256))

/-- 42_distance_fixed R172: DIST4Q, whatever LEN_A and LEN_B hold. -/
def Obligations.Dist4QCompletes : Prop :=
  (∀ w : Word, (∃ u, decodeWord w = .ok (.dist4Q u)) ↔
    w ∈ [0x14, 0x34, 0x54, 0x74, 0x94, 0xB4, 0xD4, 0xF4]) ∧
  ∀ (u : Unroll) (s : State), s.inputHazard = false →
    Answers (exec (.dist4Q u) s) (Counted s (hamming s.aByte s.bByte 256))

/-- 42_distance_fixed R173: DIST8Q, whatever LEN_A and LEN_B hold. -/
def Obligations.Dist8QCompletes : Prop :=
  (∀ w : Word, (∃ u, decodeWord w = .ok (.dist8Q u)) ↔
    w ∈ [0x15, 0x35, 0x55, 0x75, 0x95, 0xB5, 0xD5, 0xF5]) ∧
  ∀ (u : Unroll) (s : State), s.inputHazard = false →
    Answers (exec (.dist8Q u) s) (Counted s (hamming s.aByte s.bByte 512))

/-- 43_width_conversion R193: DISTB2Q. -/
def Obligations.DistB2QCompletes : Prop :=
  (∀ w : Word, (∃ u, decodeWord w = .ok (.distB2Q u)) ↔
    w ∈ [0x06, 0x26, 0x46, 0x66, 0x86, 0xA6, 0xC6]) ∧
  ∀ (u : Unroll) (s : State), s.inputHazard = false →
    (s.la ≤ s.cfg.maxBytes → s.la % 8 = 0 → s.lb = s.la →
      Answers (exec (.distB2Q u) s) (Counted s (hamming s.aByte s.bByte (8 * s.la)))) ∧
    (s.cfg.maxBytes < s.la → Answers (exec (.distB2Q u) s) (Raised s .capacity .a)) ∧
    (s.la ≤ s.cfg.maxBytes → s.cfg.maxBytes < s.lb →
      Answers (exec (.distB2Q u) s) (Raised s .capacity .b)) ∧
    (s.la ≤ s.cfg.maxBytes → s.lb ≤ s.cfg.maxBytes → s.la % 8 ≠ 0 →
      Answers (exec (.distB2Q u) s) (Raised s .invalidLength .a)) ∧
    (s.la ≤ s.cfg.maxBytes → s.lb ≤ s.cfg.maxBytes → s.la % 8 = 0 → s.lb % 8 ≠ 0 →
      Answers (exec (.distB2Q u) s) (Raised s .invalidLength .b)) ∧
    (s.la ≤ s.cfg.maxBytes → s.lb ≤ s.cfg.maxBytes → s.la % 8 = 0 → s.lb % 8 = 0 →
      s.la ≠ s.lb → Answers (exec (.distB2Q u) s) (Raised s .lengthMismatch .a))

/-- 43_width_conversion R192: TOWORDS. W_RAM byte j < LEN_A becomes A_RAM byte j: word k is bytes 8k to
8k+7, byte 8k the least significant; words at and above LEN_A/8 keep what they held. -/
def Obligations.ToWordsCompletes : Prop :=
  (∀ w : Word, (∃ u, decodeWord w = .ok (.toWords u)) ↔
    w ∈ [0x07, 0x27, 0x47, 0x67, 0x87, 0xA7, 0xC7]) ∧
  ∀ (u : Unroll) (s : State), s.inputHazard = false → s.wram.wf →
    (s.la ≤ s.cfg.maxBytes → s.la % 8 = 0 →
      Answers (exec (.toWords u) s) fun t =>
        Completed s t .noError .a (BitVec.ofNat 64 (s.la / 8)) ∧
        (∀ k < s.la / 8, ∀ free, memWord (t.wram.view free) (8 * k) = memWord s.aByte (8 * k)) ∧
        ∀ j, s.la ≤ j → t.wram.lookup j = s.wram.lookup j) ∧
    (s.cfg.maxBytes < s.la → Answers (exec (.toWords u) s) (Raised s .capacity .a)) ∧
    (s.la ≤ s.cfg.maxBytes → s.la % 8 ≠ 0 →
      Answers (exec (.toWords u) s) (Raised s .invalidLength .a))

/-- 41_distance_variable R149: symmetry, identity, maximum, triangle and the width law. -/
def Obligations.DistanceLaws : Prop :=
  ∀ (w : Width) (a b c : Nat → Byte) (n : Nat),
    distance w a b n = distance w b a n ∧
    ((∀ j < n * w.bytes, a j = b j) → distance w a b n = 0) ∧
    ((∀ j < n * w.bytes, b j = ~~~a j) → distance w a b n = n * w.bits) ∧
    distance w a c n ≤ distance w a b n + distance w b c n ∧
    distance .quad a b n = distance .byte a b (8 * n)

/-- 41_distance_variable R143, R144, 30_encoding R94, R95: the canonical algorithm, with its startup
phase and its strides of k, gives the distance for every unroll factor and every length. R144 is
informative, and where the main loop starts is its own inference (log 20). -/
def Obligations.UnrolledAlgorithmGivesTheDistance : Prop :=
  ∀ (u : Unroll) (w : Width) (a b : Nat → Byte) (n : Nat),
    canonical (strideOf u n) w a b n = distance w a b n

/-- 41_distance_variable R141, R143, R148: the lane pipeline, with an accumulator of the stated width,
holds the distance after the beats that take every pair, for every number of lanes. -/
def Obligations.LanePipelineGivesTheDistance : Prop :=
  ∀ (c : Config) (lanes : Nat) (w : Width) (a b : Nat → Byte) (n beats : Nat),
    c.Legal → 1 ≤ lanes → n * w.bytes ≤ c.maxBytes → n ≤ beats * lanes →
    pipelineAcc lanes (accBits c.maxBytes) w a b n beats = distance w a b n

/-- 42_distance_fixed R174: on the same RAM contents, the fixed-length commands agree with the
variable-length ones and with each other. -/
def Obligations.FixedAgreesWithVariable : Prop :=
  ∀ (s : State) (u v : Unroll), s.inputHazard = false → s.cfg.Legal →
    Written s.aram 64 → Written s.bram 64 →
    ∃ d32 d4 d8 b32 q4 q8 b64 : State,
      exec (.dist32B u) s = .next d32 ∧ exec (.dist4Q u) s = .next d4 ∧
      exec (.dist8Q u) s = .next d8 ∧ exec (.distB v) (s.withLen 32) = .next b32 ∧
      exec (.distQ v) (s.withLen 4) = .next q4 ∧ exec (.distQ v) (s.withLen 8) = .next q8 ∧
      exec (.distB v) (s.withLen 64) = .next b64 ∧
      d32.result = b32.result ∧ d4.result = q4.result ∧ d4.result = d32.result ∧
      d8.result = q8.result ∧ d8.result = b64.result ∧
      d32.err = .noError ∧ d4.err = .noError ∧ d8.err = .noError ∧
      b32.err = .noError ∧ q4.err = .noError ∧ q8.err = .noError ∧ b64.err = .noError

/-- 43_width_conversion R194: on the same RAM contents, the bridged distance is the byte distance and
the word distance for lengths that are multiples of 8; for the others DIST.B succeeds and DISTB2Q
raises INVALID_LENGTH. -/
def Obligations.ConversionRoundTrip : Prop :=
  ∀ (s : State) (u v : Unroll) (n : Nat), s.inputHazard = false → s.cfg.Legal →
    n ≤ s.cfg.maxBytes → Written s.aram n → Written s.bram n →
    (n % 8 = 0 → ∃ m b q : State,
      exec (.distB2Q u) (s.withLen n) = .next m ∧ exec (.distB v) (s.withLen n) = .next b ∧
      exec (.distQ v) (s.withLen (n / 8)) = .next q ∧
      m.err = .noError ∧ b.err = .noError ∧ q.err = .noError ∧
      m.result = b.result ∧ m.result = q.result) ∧
    (n % 8 ≠ 0 → ∃ m b : State,
      exec (.distB2Q u) (s.withLen n) = .next m ∧ exec (.distB v) (s.withLen n) = .next b ∧
      m.err = .invalidLength ∧ b.err = .noError)

/-- 10_state R41, 20_memory R69, R70, 70_reset_and_hazards R244: a command's outcome rests on the registers
R41 lists for it and, where it raises no error, on the bytes it reads, once they are written: two
machines of one capacity that agree there give the same STATUS.ERR, EOPND, RESULT and converted
words, whatever else they hold and whatever values their unwritten bytes take. -/
def Obligations.OnlyReadBytesMatter : Prop :=
  ∀ (i : Instr) (s s' : State), s.inputHazard = false → s'.inputHazard = false →
    s.wram.wf → s'.wram.wf →
    s'.cfg.maxBytes = s.cfg.maxBytes → SameInputs s s' i →
    (firstCause (errorCauses s i) = none →
      SameWritten s.aram s'.aram (bytesReadA s i) ∧ SameWritten s.bram s'.bram (bytesReadB s i)) →
    ∃ t t' : State, exec i s = .next t ∧ exec i s' = .next t' ∧
      t'.err = t.err ∧ t'.eopnd = t.eopnd ∧ t'.result = t.result ∧
      (isToWords i = true → t.err = .noError →
        ∀ j < 8 * t.result.toNat, t'.wram.lookup j = t.wram.lookup j)

/-! ### Errors, ranges and frames (10_state, 60_exceptions) -/

/-- 30_encoding R95: the hint U never changes anything a completion does. -/
def Obligations.UnrollHintIgnored : Prop :=
  ∀ (u v : Unroll) (s : State),
    exec (.distB u) s = exec (.distB v) s ∧ exec (.distQ u) s = exec (.distQ v) s ∧
    exec (.dist32B u) s = exec (.dist32B v) s ∧ exec (.dist4Q u) s = exec (.dist4Q v) s ∧
    exec (.dist8Q u) s = exec (.dist8Q v) s ∧ exec (.distB2Q u) s = exec (.distB2Q v) s ∧
    exec (.toWords u) s = exec (.toWords v) s

/-- 41_distance_variable R148: a count never wraps: it is at most 8 MAX_BYTES, so at most 32768. -/
def Obligations.ResultWithinRange : Prop :=
  ∀ (i : Instr) (s : State), s.inputHazard = false → s.cfg.Legal →
    Answers (exec i s) fun t => t.err = .noError →
      t.result.toNat ≤ 8 * s.cfg.maxBytes ∧ t.result.toNat ≤ 32768

/-- 60_exceptions R217: of the errors that apply to a command, the first in the order is reported, and
the command succeeds when none applies. -/
def Obligations.FirstErrorIsReported : Prop :=
  ∀ (i : Instr) (s : State), s.inputHazard = false →
    (∀ e x, firstCause (errorCauses s i) = some (e, x) → Answers (exec i s) (Raised s e x)) ∧
    (firstCause (errorCauses s i) = none →
      Answers (exec i s) fun t => t.err = .noError ∧ t.eopnd = .a)

/-- 60_exceptions R212: an error writes all ones to RESULT, which no count equals, and has no effect
beyond RESULT and STATUS. -/
def Obligations.ErrorsHaveNoOtherEffect : Prop :=
  ∀ (i : Instr) (s : State), s.inputHazard = false → s.cfg.Legal →
    Answers (exec i s) fun t =>
      (t.err ≠ .noError → Raised s t.err t.eopnd t) ∧
      (t.err = .noError → t.result ≠ 0xFFFFFFFFFFFFFFFF)

/-- 10_state R40, 20_memory R70: the frame of every command: a completion clears BUSY, sets DONE, and
leaves every input, CMD, OVERRUN and the host's side alone; and only TOWORDS changes a byte of W_RAM. -/
def Obligations.CompletionFrame : Prop :=
  ∀ (i : Instr) (s : State), Answers (exec i s) fun t =>
    CompletionKeeps s t ∧ t.busy = false ∧ t.done = true ∧
    (isToWords i = false → ∀ j, t.wram.lookup j = s.wram.lookup j)

/-- 43_width_conversion R192, 10_state R36: the frame of TOWORDS: W_RAM bytes outside the words it
stores, bytes 8k to 8k+7 for k < LEN_A/8, are unchanged; on an error every byte is. -/
def Obligations.ToWordsStoreFrame : Prop :=
  ∀ (u : Unroll) (s : State), s.inputHazard = false → s.wram.wf →
    Answers (exec (.toWords u) s) fun t => ∀ j,
      (t.err = .noError → ∀ k < s.la / 8, ¬(8 * k ≤ j ∧ j < 8 * k + 8)) →
      t.wram.lookup j = s.wram.lookup j

/-! ### The host port (10_state, 20_memory, 60_exceptions) -/

/-- 10_state R38: a write of CMD while BUSY = 0 is an accept, for every value, and changes no other
register and no RAM. That the record of an earlier command's input hazard ends with it is the model's
choice, and R38 says nothing of it (DESIGN CHOICE, log 6). -/
def Obligations.CommandWriteAccepts : Prop :=
  ∀ (s : State) (v : Word), s.busy = false →
    Answers (hostWrite 0x008 64 v s) fun t =>
      t.cmd = v ∧ t.busy = true ∧ t.done = false ∧ t.overrun = false ∧ t.err = .noError ∧
      t.eopnd = .a ∧ t.result = s.result ∧ t.lenA = s.lenA ∧ t.lenB = s.lenB ∧
      t.operand = s.operand ∧ t.aram = s.aram ∧ t.bram = s.bram ∧ t.wram = s.wram ∧
      t.cfg = s.cfg ∧ t.rst = s.rst ∧ t.script = s.script ∧ t.turns = s.turns ∧
      t.draws = s.draws ∧ t.inputHazard = false ∧ t.replies = .write false :: s.replies

/-- 10_state R39: a write of CMD while BUSY = 1 changes nothing but OVERRUN, in either hazard policy. -/
def Obligations.CommandWriteWhileBusyDropped : Prop :=
  ∀ (s : State) (v : Word), s.busy = true →
    hostWrite 0x008 64 v s = .next ({ s with overrun := true }.reply (.write false))

/-- 20_memory R63, 10_state R30 to R32: writes of LEN_A, LEN_B and OPERAND while BUSY = 0: the value
written, without the bits 63:32 of a length, and no other change. -/
def Obligations.RegisterWrites : Prop :=
  ∀ (s : State) (v : Word), s.busy = false →
    (∃ n : BitVec 32, n.toNat = v.toNat % 2 ^ 32 ∧
      hostWrite 0x018 64 v s = .next ({ s with lenA := n }.reply (.write false)) ∧
      hostWrite 0x020 64 v s = .next ({ s with lenB := n }.reply (.write false))) ∧
    hostWrite 0x028 64 v s = .next ({ s with operand := v }.reply (.write false))

/-- 20_memory R62, R63, R68: a word written to the A_RAM or B_RAM window while BUSY = 0 reads back,
byte t of it is data bits 8t+7:8t, and no other byte or register changes. -/
def Obligations.RamWriteReadsBack : Prop :=
  ∀ (s : State) (v : Word) (k : Nat), s.busy = false → s.cfg.Legal → 8 * k < s.cfg.maxBytes →
    (s.aram.wf → Answers (hostWrite (0x1000 + 8 * k) 64 v s) fun t =>
      t = { s with aram := t.aram, replies := .write false :: s.replies } ∧
      (∀ i < 8, t.aram.lookup (8 * k + i) = some (v.extractLsb' (8 * i) 8)) ∧
      (∀ j, ¬(8 * k ≤ j ∧ j < 8 * k + 8) → t.aram.lookup j = s.aram.lookup j) ∧
      (hostRead (0x1000 + 8 * k) 64 t).replies = .read v false :: t.replies) ∧
    (s.bram.wf → Answers (hostWrite (0x2000 + 8 * k) 64 v s) fun t =>
      t = { s with bram := t.bram, replies := .write false :: s.replies } ∧
      (∀ i < 8, t.bram.lookup (8 * k + i) = some (v.extractLsb' (8 * i) 8)) ∧
      (∀ j, ¬(8 * k ≤ j ∧ j < 8 * k + 8) → t.bram.lookup j = s.bram.lookup j) ∧
      (hostRead (0x2000 + 8 * k) 64 t).replies = .read v false :: t.replies)

/-- 20_memory R67: a write to PARAMS, STATUS, RESULT or the W_RAM window gets no bus error and changes
no state, BUSY or not. -/
def Obligations.ReadOnlyWritesIgnored : Prop :=
  ∀ (s : State) (v : Word) (off : Nat), s.cfg.Legal →
    (off = 0x000 ∨ off = 0x010 ∨ off = 0x030 ∨
      (0x3000 ≤ off ∧ off < 0x3000 + s.cfg.maxBytes ∧ off % 8 = 0)) →
    hostWrite off 64 v s = .next (s.reply (.write false))

/-- 60_exceptions R219, 20_memory R61, R64 to R66: a transaction gets a bus error exactly when its
width is not 64 bits, its offset is not a multiple of 8, or its offset is unmapped; it changes no
state, and a read's data is 0. -/
def Obligations.BusErrorsHaveNoEffect : Prop :=
  ∀ (s : State) (off bits : Nat) (v : Word), s.cfg.Legal →
    (target s.cfg off bits = none ↔
      bits ≠ 64 ∨ off % 8 ≠ 0 ∨ Unmapped s.cfg.maxBytes off) ∧
    (target s.cfg off bits = none →
      hostRead off bits s = s.reply (.read 0 true) ∧
      hostWrite off bits v s = .next (s.reply (.write true))) ∧
    (target s.cfg off bits ≠ none →
      (∃ x, (hostRead off bits s).replies = .read x false :: s.replies) ∧
      ∀ t, hostWrite off bits v s = .next t → t.replies = .write false :: s.replies)

/-- 20_memory R62, 10_state R22, R24, R30 to R33: what a read of each register returns; RESULT while
BUSY = 0. STATUS holds BUSY in bit 0, DONE in bit 1, OVERRUN in bit 2, ERR in bits 7:4 and EOPND in
bit 8, and 0 elsewhere. -/
def Obligations.RegisterReads : Prop :=
  ∀ s : State, s.cfg.Legal →
    (∃ p n m st : Word,
      (hostRead 0x000 64 s).replies = .read p false :: s.replies ∧ p.toNat = s.cfg.maxBytes ∧
      (hostRead 0x018 64 s).replies = .read n false :: s.replies ∧ n.toNat = s.lenA.toNat ∧
      (hostRead 0x020 64 s).replies = .read m false :: s.replies ∧ m.toNat = s.lenB.toNat ∧
      (hostRead 0x010 64 s).replies = .read st false :: s.replies ∧
      st.toNat = s.busy.toNat + 2 * s.done.toNat + 4 * s.overrun.toNat +
        16 * (match s.err with
          | .noError => 0
          | .lengthMismatch => 1
          | .invalidLength => 2
          | .illegalCommand => 3
          | .capacity => 4) +
        256 * (match s.eopnd with
          | .a => 0
          | .b => 1)) ∧
    (hostRead 0x008 64 s).replies = .read s.cmd false :: s.replies ∧
    (hostRead 0x028 64 s).replies = .read s.operand false :: s.replies ∧
    (s.busy = false → (hostRead 0x030 64 s).replies = .read s.result false :: s.replies)

/-- 20_memory R62, R68, R69: a read in a RAM window, its eight bytes written, returns them with byte t
in data bits 8t+7:8t; for W_RAM while no TOWORDS is in flight. -/
def Obligations.RamReads : Prop :=
  ∀ (s : State) (k : Nat) (bytes : Nat → Byte), s.cfg.Legal → 8 * k < s.cfg.maxBytes →
    ∃ x : Word, (∀ t < 8, x.extractLsb' (8 * t) 8 = bytes t) ∧
      ((∀ t < 8, s.aram.lookup (8 * k + t) = some (bytes t)) →
        (hostRead (0x1000 + 8 * k) 64 s).replies = .read x false :: s.replies) ∧
      ((∀ t < 8, s.bram.lookup (8 * k + t) = some (bytes t)) →
        (hostRead (0x2000 + 8 * k) 64 s).replies = .read x false :: s.replies) ∧
      (s.toWordsInFlight = false → (∀ t < 8, s.wram.lookup (8 * k + t) = some (bytes t)) →
        (hostRead (0x3000 + 8 * k) 64 s).replies = .read x false :: s.replies)

/-- 20_memory R71: a read changes nothing of the machine: only the host's replies, and the model's own
draw counter. -/
def Obligations.ReadsHaveNoSideEffects : Prop :=
  ∀ (s : State) (off bits : Nat),
    hostRead off bits s =
      { s with replies := (hostRead off bits s).replies, draws := (hostRead off bits s).draws } ∧
    ∃ x e, (hostRead off bits s).replies = .read x e :: s.replies

/-- 20_memory R71: a read of a location that draws no free value gives the same answer again, whatever
reads came between: they change the replies and the draw counter alone. -/
def Obligations.ReadsRepeat : Prop :=
  ∀ (s : State) (off bits : Nat),
    (∀ t, target s.cfg off bits = some t → s.Settled t) →
    ∃ r : Reply, ∀ (rs : List Reply) (d : Nat),
      (hostRead off bits { s with replies := rs, draws := d }).replies = r :: rs

/-- 20_memory R71: a write of anything but CMD, made twice, leaves what it leaves made once, but for the
second reply; the RAMs byte by byte. -/
def Obligations.WritesAreIdempotent : Prop :=
  ∀ (s t : State) (off bits : Nat) (v : Word), s.aram.wf → s.bram.wf →
    target s.cfg off bits ≠ some .cmd → hostWrite off bits v s = .next t →
    Answers (hostWrite off bits v t) fun t' =>
      (∃ r : Reply, t.replies = r :: s.replies ∧ t'.replies = r :: t.replies) ∧
      t' = { t with aram := t'.aram, bram := t'.bram, replies := t'.replies } ∧
      ∀ j, t'.aram.lookup j = t.aram.lookup j ∧ t'.bram.lookup j = t.bram.lookup j

/-- 30_encoding R104: POLL reads STATUS, and ends exactly when it reads BUSY = 0. -/
def Obligations.PollReadsUntilIdle : Prop :=
  ∀ s : State, s.rst = false →
    hostStmt .poll s =
      .next { s with
        script := if s.busy then .poll :: s.script else s.script
        replies := .read s.statusWord false :: s.replies
        draws := s.draws + 1 }

/-! ### Hazards and reset (70_reset_and_hazards) -/

/-- 70_reset_and_hazards R245: a write of an input while BUSY is the fault InputWrittenWhileBusy where
the policy is to stop. Where it is to go on (the model's choice of the two R245 allows, log 6), the
write takes effect and the fault is recorded; the completion then still ends the command, and leaves
everything but RESULT, ERR, EOPND and, for TOWORDS, W_RAM as any completion does. Those values are
free: they rest on the draw alone, the same for any two machines however their inputs differ; and a
TOWORDS writes every byte of W_RAM (log 8). -/
def Obligations.InputHazard : Prop :=
  (∀ (s : State) (off : Nat) (v : Word) (t : Target), s.busy = true →
    target s.cfg off 64 = some t → t.isInput = true →
    (s.cfg.hazardPolicy = .stop → hostWrite off 64 v s = .fault .inputWrittenWhileBusy) ∧
    (s.cfg.hazardPolicy = .goOn → hostWrite off 64 v s =
      .next ({ s.writeTarget v t with inputHazard := true }.reply (.write false)))) ∧
  (∀ t : Target, t.isInput = true ↔
    t = .lenA ∨ t = .lenB ∨ t = .operand ∨ (∃ j, t = .aRam j) ∨ ∃ j, t = .bRam j) ∧
  (∀ (i : Instr) (s : State), s.inputHazard = true →
    Answers (exec i s) fun t => t.busy = false ∧ t.done = true ∧ CompletionKeeps s t ∧
      (isToWords i = false → t.wram = s.wram) ∧
      (isToWords i = true → ∀ j < s.cfg.maxBytes, t.wram.lookup j ≠ none)) ∧
  (∀ (i i' : Instr) (s s' : State), s.inputHazard = true → s'.inputHazard = true →
    s'.draws = s.draws → ∃ t t' : State, exec i s = .next t ∧ exec i' s' = .next t' ∧
      t'.result = t.result ∧ t'.err = t.err ∧ t'.eopnd = t.eopnd ∧
      (isToWords i = true → isToWords i' = true → s'.cfg.maxBytes = s.cfg.maxBytes →
        t'.wram = t.wram)) ∧
  ∀ (s s' : State) (rest rest' : List Agent), EngineMoves s rest → EngineMoves s' rest' →
    s.inputHazard = true → s'.inputHazard = true → s'.cmd = s.cmd → s'.draws = s.draws →
    ∃ t t' : State, step s = .next t ∧ step s' = .next t' ∧
      t'.result = t.result ∧ t'.err = t.err ∧ t'.eopnd = t.eopnd ∧
      t.busy = false ∧ t.done = true ∧ CompletionKeeps { s with turns := rest } t ∧
      (IllegalWord s.cmd → t.wram = s.wram)

/-- 70_reset_and_hazards R246, R247: a read of RESULT while BUSY says nothing of RESULT, and a read of
W_RAM while a TOWORDS is in flight says nothing of W_RAM; while another command is in flight W_RAM
reads as stored. What is read instead is the model's free value (log 5). -/
def Obligations.BusyReadsSayNothing : Prop :=
  ∀ (s : State) (x : Word) (m : Memory) (k : Nat), s.busy = true → s.cfg.Legal →
    8 * k < s.cfg.maxBytes →
    (hostRead 0x030 64 { s with result := x }).replies = (hostRead 0x030 64 s).replies ∧
    ((∃ u, decodeWord s.cmd = .ok (.toWords u)) →
      (hostRead (0x3000 + 8 * k) 64 { s with wram := m }).replies =
        (hostRead (0x3000 + 8 * k) 64 s).replies) ∧
    ((∀ u, decodeWord s.cmd ≠ .ok (.toWords u)) →
      (hostRead (0x3000 + 8 * k) 64 s).replies =
        .read (memWord s.wByte (8 * k)) false :: s.replies)

/-- 70_reset_and_hazards R240, R243: asserting `rst`, and releasing it, leave every register at 0 and
start no command; MAX_BYTES stays; driving it low while it is low changes nothing; while it is
asserted a transaction has no step; and the state after reset is that state. The two events of the
pin and the refusal are the model's (logs 9, 10). -/
def Obligations.ResetTakesResetValues : Prop :=
  (∀ (s : State) (level : Bool), level = true ∨ s.rst = true →
    Answers (hostStmt (.rst level) s) fun t =>
      t.cmd = 0 ∧ t.statusWord = 0 ∧ t.lenA = 0 ∧ t.lenB = 0 ∧ t.operand = 0 ∧ t.result = 0 ∧
      t.cfg = s.cfg ∧ t.rst = level) ∧
  (∀ s : State, s.rst = false → hostStmt (.rst false) s = .next s) ∧
  (∀ (s : State) (off bits : Nat) (v : Word), s.rst = true →
    hostStmt (.rd off bits) s = .refused .transactionInReset ∧
    hostStmt (.wr off bits v) s = .refused .transactionInReset ∧
    hostStmt .poll s = .refused .transactionInReset) ∧
  State.reset.cmd = 0 ∧ State.reset.statusWord = 0 ∧ State.reset.lenA = 0 ∧
    State.reset.lenB = 0 ∧ State.reset.operand = 0 ∧ State.reset.result = 0

/-- 70_reset_and_hazards R241, R242: reset while BUSY = 1 abandons the command: BUSY and DONE are 0, and
RESULT and STATUS get none of its writes; and every RAM byte counts as unwritten (log 10). -/
def Obligations.ResetAbandonsTheCommand : Prop :=
  ∀ s : State, s.busy = true →
    Answers (hostStmt (.rst true) s) fun t =>
      t.busy = false ∧ t.done = false ∧ t.result = 0 ∧ t.err = .noError ∧ t.eopnd = .a ∧
      (∀ j, t.aram.lookup j = none ∧ t.bram.lookup j = none ∧ t.wram.lookup j = none) ∧
      ∀ rest, engineTurn { t with turns := rest } = .next { t with turns := rest }

/-! ### The machine as a whole -/

/-- The invariant holds after reset, for every legal capacity (00_scope R8, 70_reset_and_hazards R240). -/
def Obligations.ResetMeetsTheInvariant : Prop :=
  State.reset.Inv ∧ ∀ c : Config, c.Legal → (State.resetOf c).Inv

/-- Every step keeps the invariant: the capacity is legal, the RAMs are canonical and inside it, BUSY
and DONE are never both set, and STATUS, RESULT and CMD fit together (10_state R22 to R36, 60_exceptions
R211, R212, 41_distance_variable R148). -/
def Obligations.StepKeepsTheInvariant : Prop :=
  ∀ s t : State, s.Inv → step s = .next t → t.Inv

/-- 10_state R42: every accepted command completes, or is abandoned by reset, after at most as many
steps as there are turns placed before it and one more (the list of turns is the model's, log 2). -/
def Obligations.EveryCommandCompletes : Prop :=
  ∀ s : State, s.Inv → s.busy = true → s.cfg.hazardPolicy = .goOn →
    ∃ k ≤ s.turns.length + 1, ∃ t : State,
      Host.Core.run Sys2Proof.core k s = Host.Outcome.next t ∧ t.busy = false ∧
      (t.done = true ∨ t.rst = true)

/-- 60_exceptions R210, 70_reset_and_hazards R240, R245: a step stops in two cases only: the host writes
an input while BUSY where the policy is to stop, and the host issues a transaction while `rst` is
asserted (the model's choices, logs 6 and 9). -/
def Obligations.OnlyTheseStops : Prop :=
  ∀ s : State,
    (∀ r, step s = .fault r →
      r = .inputWrittenWhileBusy ∧ s.cfg.hazardPolicy = .stop ∧ s.busy = true ∧ s.rst = false ∧
      ∃ off v t after rest, HostMoves s (.wr off 64 v) after rest ∧
        target s.cfg off 64 = some t ∧ t.isInput = true) ∧
    (∀ r, step s = .refused r →
      r = .transactionInReset ∧ s.rst = true ∧
      ∃ h after rest, HostMoves s h after rest ∧
        (h = .poll ∨ (∃ off bits, h = .rd off bits) ∨ ∃ off bits v, h = .wr off bits v)) ∧
    (s.cfg.hazardPolicy = .goOn → s.rst = false → ∃ t, step s = .next t)

/-- 10_state R25, R26: BUSY is set only by an accept and cleared only by a completion or by reset; DONE
is set only by a completion, and cleared only by an accept or by reset. -/
def Obligations.BusyAndDoneChangeOnly : Prop :=
  ∀ s t : State, step s = .next t →
    (s.busy = false → t.busy = true →
      t.done = false ∧ ∃ v after rest, HostMoves s (.wr 0x008 64 v) after rest ∧ t.cmd = v) ∧
    (s.busy = true → t.busy = false →
      (t.done = true ∧ ∃ rest, EngineMoves s rest) ∨
        ∃ level after rest, HostMoves s (.rst level) after rest) ∧
    (s.done = false → t.done = true → s.busy = true ∧ t.busy = false ∧ ∃ rest, EngineMoves s rest) ∧
    (s.done = true → t.done = false →
      (s.busy = false ∧ t.busy = true) ∨
        ∃ level after rest, HostMoves s (.rst level) after rest)

/-- 10_state R27: OVERRUN is 0 after reset; a host write of CMD sets it while BUSY = 1 and clears it while
BUSY = 0, reset clears it, and no other event changes it; setting it changes no other bit of STATUS. -/
def Obligations.OverrunChangesOnly : Prop :=
  State.reset.overrun = false ∧
  ∀ s t : State, step s = .next t →
    (∀ v after rest, HostMoves s (.wr 0x008 64 v) after rest → t.overrun = s.busy) ∧
    (∀ level after rest, HostMoves s (.rst level) after rest → level = true ∨ s.rst = true →
      t.overrun = false) ∧
    (t.overrun ≠ s.overrun →
      (∃ v after rest, HostMoves s (.wr 0x008 64 v) after rest) ∨
        ∃ level after rest, HostMoves s (.rst level) after rest) ∧
    (s.overrun = false → t.overrun = true →
      t.err = s.err ∧ t.eopnd = s.eopnd ∧ t.busy = s.busy ∧ t.done = s.done)

/-- 20_memory R70, 10_state R34 to R36, R22: no step of the Engine changes an input of a command; W_RAM
changes only at the completion of a TOWORDS or by reset; PARAMS never changes. -/
def Obligations.StorageChangesOnly : Prop :=
  ∀ s t : State, step s = .next t →
    (∀ rest, EngineMoves s rest → t.lenA = s.lenA ∧ t.lenB = s.lenB ∧ t.operand = s.operand ∧
      t.aram = s.aram ∧ t.bram = s.bram ∧ t.cmd = s.cmd) ∧
    (t.wram ≠ s.wram →
      (∃ rest u, EngineMoves s rest ∧ decodeWord s.cmd = .ok (.toWords u)) ∨
        ∃ level after rest, HostMoves s (.rst level) after rest) ∧
    t.cfg = s.cfg

/-- 10_state R23, R28 to R33: CMD changes only by an accept, RESULT only by a completion, ERR and EOPND by
either, LEN_A, LEN_B and OPERAND only by a host write of that register; and each by reset. -/
def Obligations.RegistersChangeOnly : Prop :=
  ∀ s t : State, step s = .next t →
    (∃ level after rest, HostMoves s (.rst level) after rest) ∨
    (t.cmd ≠ s.cmd →
      s.busy = false ∧ ∃ after rest, HostMoves s (.wr 0x008 64 t.cmd) after rest) ∧
    (t.result ≠ s.result → ∃ rest, EngineMoves s rest) ∧
    (t.err ≠ s.err ∨ t.eopnd ≠ s.eopnd →
      (∃ rest, EngineMoves s rest) ∨
        (s.busy = false ∧ ∃ v after rest, HostMoves s (.wr 0x008 64 v) after rest)) ∧
    (t.lenA ≠ s.lenA → ∃ v after rest,
      HostMoves s (.wr 0x018 64 v) after rest ∧ t.lenA.toNat = v.toNat % 2 ^ 32) ∧
    (t.lenB ≠ s.lenB → ∃ v after rest,
      HostMoves s (.wr 0x020 64 v) after rest ∧ t.lenB.toNat = v.toNat % 2 ^ 32) ∧
    (t.operand ≠ s.operand → ∃ after rest, HostMoves s (.wr 0x028 64 t.operand) after rest)

/-- 10_state R34, R35, 20_memory R71: a byte of A_RAM or B_RAM changes only by a host write of the word
that holds it, or by reset. -/
def Obligations.SignaturesChangeOnly : Prop :=
  ∀ (s t : State) (j : Nat), step s = .next t →
    (s.aram.wf → t.aram.lookup j ≠ s.aram.lookup j →
      (∃ v after rest, HostMoves s (.wr (0x1000 + 8 * (j / 8)) 64 v) after rest) ∨
        ∃ level after rest, HostMoves s (.rst level) after rest) ∧
    (s.bram.wf → t.bram.lookup j ≠ s.bram.lookup j →
      (∃ v after rest, HostMoves s (.wr (0x2000 + 8 * (j / 8)) 64 v) after rest) ∨
        ∃ level after rest, HostMoves s (.rst level) after rest)

/-- 20_memory R73, R74, 10_state R40: wherever the completion falls after its accept, its outcome is the
same. With the bytes the command reads written, a completion after n host moves that obey the
hazard rule leaves the same values as a completion at once. The list of turns that places it is the
model's choice (log 2). -/
def Obligations.OutcomeSameForEveryPlacement : Prop :=
  ∀ (s : State) (n : Nat), s.busy = true → s.inputHazard = false → s.rst = false →
    (∀ h ∈ s.script, h.keepsInputs s.cfg = true) →
    (∀ i, decodeWord s.cmd = .ok i → firstCause (errorCauses s i) = none →
      Written s.aram (bytesReadA s i) ∧ Written s.bram (bytesReadB s i)) →
    ∃ t t' : State,
      Host.Core.run Sys2Proof.core 1 { s with turns := [.engine] } = Host.Outcome.next t ∧
      Host.Core.run Sys2Proof.core (n + 1)
        { s with turns := List.replicate n .host ++ [.engine] } = Host.Outcome.next t' ∧
      t.done = true ∧ t'.done = true ∧ t'.busy = false ∧ t'.cmd = t.cmd ∧ t'.err = t.err ∧
      t'.eopnd = t.eopnd ∧ t'.result = t.result ∧ t'.wram = t.wram ∧ t'.aram = t.aram ∧
      t'.bram = t.bram ∧ t'.lenA = t.lenA ∧ t'.lenB = t.lenB ∧ t'.operand = t.operand
end

