-- ==== Sys2Proof/Laws/Decode.lean ====
section
/-!
SUPPORT. The fields of a packed command word, and a word as its fields (30_encoding R91).
-/

namespace Sys2Proof

theorem Unroll.ofCode_code (u : Unroll) : Unroll.ofCode u.code = u := by cases u <;> rfl

theorem Unroll.code_ofCode (c : BitVec 3) : (Unroll.ofCode c).code = c := by
  revert c; decide

theorem opField_pack (op : BitVec 4) (q : Bool) (u : Unroll) : opField (packFields op q u) = op := by
  apply BitVec.eq_of_getLsbD_eq
  intro i hi
  simp only [opField, packFields, BitVec.getLsbD_extractLsb', BitVec.getLsbD_append]
  simp [hi]

theorem wField_pack (op : BitVec 4) (q : Bool) (u : Unroll) : wField (packFields op q u) = q := by
  simp only [wField, packFields, BitVec.getLsbD_append]
  cases q <;> simp

theorem uField_pack (op : BitVec 4) (q : Bool) (u : Unroll) :
    uField (packFields op q u) = u.code := by
  apply BitVec.eq_of_getLsbD_eq
  intro i hi
  simp only [uField, packFields, BitVec.getLsbD_extractLsb', BitVec.getLsbD_append]
  interval_cases i <;> simp

theorem rsvField_pack (op : BitVec 4) (q : Bool) (u : Unroll) :
    rsvField (packFields op q u) = 0 := by
  apply BitVec.eq_of_getLsbD_eq
  intro i hi
  simp only [rsvField, packFields, BitVec.getLsbD_extractLsb', BitVec.getLsbD_append]
  have h1 : ¬(8 + i < 4) := by omega
  have h2 : ¬(8 + i - 4 < 1) := by omega
  have h3 : ¬(8 + i - 4 - 1 < 3) := by omega
  simp [h1, h2, h3]

/-- Decoding a packed word is decoding its fields. -/
theorem decodeWord_pack (op : BitVec 4) (q : Bool) (u : Unroll) :
    decodeWord (packFields op q u) = decodeFields op q u := by
  unfold decodeWord
  rw [rsvField_pack, opField_pack, wField_pack, uField_pack, Unroll.ofCode_code]
  exact if_neg (fun h => h rfl)

/-- A word with a reserved bit set is illegal (30_encoding R98). -/
theorem decodeWord_reserved (w : Word) (h : rsvField w ≠ 0) :
    decodeWord w = .error .reservedBits := if_pos h

/-- A word with RSV = 0 is its fields packed. -/
theorem pack_fields (w : Word) (h : rsvField w = 0) :
    packFields (opField w) (wField w) (Unroll.ofCode (uField w)) = w := by
  apply BitVec.eq_of_getLsbD_eq
  intro i hi
  simp only [packFields, Unroll.code_ofCode, BitVec.getLsbD_append, opField, uField, wField,
    BitVec.getLsbD_extractLsb']
  have hr : 8 ≤ i → w.getLsbD i = false := by
    intro h8
    have := congrArg (fun v => v.getLsbD (i - 8)) h
    simpa [rsvField, BitVec.getLsbD_extractLsb', show i - 8 < 56 by omega,
      show 8 + (i - 8) = i by omega] using this
  by_cases h8 : 8 ≤ i
  · have h1 : ¬(i < 4) := by omega
    have h2 : ¬(i - 4 < 1) := by omega
    have h3 : ¬(i - 4 - 1 < 3) := by omega
    simp [hr h8, h1, h2, h3]
  · have : i < 8 := by omega
    interval_cases i <;> simp

end Sys2Proof
end

