-- ==== Sys2Proof/Laws/Memory.lean ====
section
/-!
SUPPORT. The laws of a RAM: a read after a write, and that every memory operation keeps the
canonical form and the RAM's bounds.
-/

namespace Sys2Proof.Machine

@[simp] theorem Memory.wf_nil : Memory.wf [] := List.Pairwise.nil

@[simp] theorem Memory.below_nil (cap : Nat) : Memory.below [] cap := by
  intro c hc; cases hc

theorem Memory.lookup_write (m : Memory) (j i : Nat) (b : Byte) (h : m.wf) :
    (m.write j b).lookup i = if i = j then some b else m.lookup i := by
  induction m with
  | nil => simp only [Memory.write, Memory.lookup, eq_comm]
  | cons c m ih =>
    obtain ⟨k, x⟩ := c
    have hm : Memory.wf m := (List.pairwise_cons.mp h).2
    simp only [Memory.write]
    split
    · simp only [Memory.lookup]; grind
    · split
      · simp only [Memory.lookup]; grind
      · simp only [Memory.lookup, ih hm]; grind

theorem Memory.mem_write (m : Memory) (j : Nat) (b : Byte) (c : Host.Cell)
    (hc : c ∈ m.write j b) : c = (j, b) ∨ c ∈ m := by
  induction m with
  | nil => simpa [Memory.write] using hc
  | cons d m ih =>
    obtain ⟨k, x⟩ := d
    simp only [Memory.write] at hc
    split at hc
    · simpa using hc
    · split at hc <;> simp only [List.mem_cons] at hc ⊢ <;> tauto

theorem Memory.write_wf (m : Memory) (j : Nat) (b : Byte) (h : m.wf) : (m.write j b).wf := by
  induction m with
  | nil => simp [Memory.write, Memory.wf]
  | cons c m ih =>
    obtain ⟨k, x⟩ := c
    obtain ⟨hk, hm⟩ := List.pairwise_cons.mp h
    simp only [Memory.write]
    split
    · next hlt =>
      refine List.pairwise_cons.mpr ⟨?_, h⟩
      intro a ha
      rcases List.mem_cons.mp ha with rfl | ha
      · exact hlt
      · exact lt_trans hlt (hk a ha)
    · split
      · next heq => subst heq; exact List.pairwise_cons.mpr ⟨hk, hm⟩
      · next h1 h2 =>
        refine List.pairwise_cons.mpr ⟨?_, ih hm⟩
        intro a ha
        obtain ⟨c, hc, rfl⟩ := List.mem_map.mp ha
        rcases Memory.mem_write m j b c hc with rfl | hc
        · exact lt_of_le_of_ne (not_lt.mp h1) (fun e => h2 e.symm)
        · exact hk _ (List.mem_map_of_mem hc)

theorem Memory.write_below (m : Memory) (j : Nat) (b : Byte) (cap : Nat) (h : m.below cap)
    (hj : j < cap) : (m.write j b).below cap := by
  intro c hc
  rcases Memory.mem_write m j b c hc with rfl | hc
  · exact hj
  · exact h c hc

theorem Memory.writeBytes_wf (m : Memory) (j n : Nat) (v : Word) (h : m.wf) :
    (m.writeBytes j n v).wf := by
  induction n with
  | zero => exact h
  | succ n ih => exact Memory.write_wf _ _ _ ih

theorem Memory.writeBytes_below (m : Memory) (j n : Nat) (v : Word) (cap : Nat) (h : m.below cap)
    (hj : j + n ≤ cap) : (m.writeBytes j n v).below cap := by
  induction n with
  | zero => exact h
  | succ n ih => exact Memory.write_below _ _ _ _ (ih (by omega)) (by omega)

/-- A read after `MemWrite`: inside the n bytes the byte written, elsewhere what was there. -/
theorem Memory.lookup_writeBytes (m : Memory) (j n : Nat) (v : Word) (i : Nat) (h : m.wf) :
    (m.writeBytes j n v).lookup i =
      if j ≤ i ∧ i < j + n then some (v.extractLsb' (8 * (i - j)) 8) else m.lookup i := by
  induction n with
  | zero => simp only [Memory.writeBytes]; rw [if_neg (by omega)]
  | succ n ih =>
    simp only [Memory.writeBytes]
    rw [Memory.lookup_write _ _ _ _ (Memory.writeBytes_wf m j n v h), ih]
    by_cases hi : i = j + n
    · subst hi
      rw [if_pos rfl, if_pos (by omega), Nat.add_sub_cancel_left]
    · rw [if_neg hi]
      by_cases hc : j ≤ i ∧ i < j + n
      · rw [if_pos hc, if_pos (by omega)]
      · rw [if_neg hc, if_neg (by omega)]

theorem Memory.writeWords_append (m : Memory) (xs ys : List (Nat × Word)) :
    m.writeWords (xs ++ ys) = (m.writeWords xs).writeWords ys := by
  induction xs generalizing m with
  | nil => rfl
  | cons x xs ih => exact ih _

theorem Memory.writeWords_wf (m : Memory) (wr : List (Nat × Word)) (h : m.wf) :
    (m.writeWords wr).wf := by
  induction wr generalizing m with
  | nil => exact h
  | cons x wr ih => exact ih _ (Memory.writeBytes_wf _ _ _ _ h)

theorem Memory.writeWords_below (m : Memory) (wr : List (Nat × Word)) (cap : Nat)
    (h : m.below cap) (hwr : ∀ p ∈ wr, 8 * p.1 + 8 ≤ cap) : (m.writeWords wr).below cap := by
  induction wr generalizing m with
  | nil => exact h
  | cons x wr ih =>
    exact ih _ (Memory.writeBytes_below _ _ _ _ _ h (hwr x (by simp)))
      (fun p hp => hwr p (List.mem_cons_of_mem _ hp))

theorem mem_wordWrites (ram : Nat → Byte) (n : Nat) (p : Nat × Word) (hp : p ∈ wordWrites ram n) :
    p.1 < n ∧ p.2 = toWord ram p.1 := by
  induction n with
  | zero => cases hp
  | succ n ih =>
    rcases List.mem_append.mp hp with h | h
    · exact ⟨Nat.lt_succ_of_lt (ih h).1, (ih h).2⟩
    · obtain rfl := List.mem_singleton.mp h
      exact ⟨Nat.lt_succ_self n, rfl⟩

/-- W_RAM after a conversion of n words: word k < n holds `toWord ram k`, every other byte what was
there (43_width_conversion R192). -/
theorem Memory.lookup_wordWrites (m : Memory) (ram : Nat → Byte) (n i : Nat) (h : m.wf) :
    (m.writeWords (wordWrites ram n)).lookup i =
      if i < 8 * n then some ((toWord ram (i / 8)).extractLsb' (8 * (i % 8)) 8)
      else m.lookup i := by
  induction n with
  | zero => rw [if_neg (by omega)]; rfl
  | succ n ih =>
    simp only [wordWrites, Memory.writeWords_append, Memory.writeWords]
    rw [Memory.lookup_writeBytes _ _ _ _ _ (Memory.writeWords_wf m _ h), ih]
    by_cases hc : 8 * n ≤ i ∧ i < 8 * n + 8
    · rw [if_pos hc, if_pos (by omega), show i / 8 = n by omega,
        show i - 8 * n = i % 8 by omega]
    · rw [if_neg hc]
      by_cases hi : i < 8 * n
      · rw [if_pos hi, if_pos (by omega)]
      · rw [if_neg hi, if_neg (by omega)]

/-- A RAM whose bytes are all written is in canonical form. -/
theorem Memory.ofBytes_wf (bytes : Nat → Byte) (n : Nat) : (Memory.ofBytes bytes n).wf := by
  have h : (Memory.ofBytes bytes n).map Prod.fst = List.range n := by
    simp [Memory.ofBytes, Function.comp_def]
  simpa [Memory.wf, h] using List.pairwise_lt_range

theorem Memory.ofBytes_below (bytes : Nat → Byte) (n : Nat) :
    (Memory.ofBytes bytes n).below n := by
  intro c hc
  obtain ⟨j, hj, rfl⟩ := List.mem_map.mp hc
  exact List.mem_range.mp hj

/-- A RAM of n bytes holds each of them, and nothing past them. -/
theorem Memory.lookup_ofBytes (bytes : Nat → Byte) (n j : Nat) :
    (Memory.ofBytes bytes n).lookup j = if j < n then some (bytes j) else none := by
  have hit : ∀ xs : List Nat, Memory.lookup (xs.map fun k => (k, bytes k)) j =
      if j ∈ xs then some (bytes j) else none := by
    intro xs
    induction xs with
    | nil => rfl
    | cons x xs ih =>
      simp only [List.map_cons, Memory.lookup, ih, List.mem_cons]
      by_cases hx : x = j
      · simp [hx]
      · simp [hx, Ne.symm hx]
  simpa [Memory.ofBytes] using hit (List.range n)

/-- A written byte is what every read of it finds. -/
theorem Memory.view_of_lookup (m : Memory) (free : Nat → Byte) (j : Nat) (b : Byte)
    (h : m.lookup j = some b) : m.view free j = b := by
  simp [Memory.view, h]

end Sys2Proof.Machine
end

