-- ==== Sys2Proof/Laws/Operands.lean ====
section
/-!
SUPPORT. The laws of sums, of the population count and of elements, which the statements about the
distance are proved from.
-/

namespace Sys2Proof.Machine

theorem sumBelow_congr (f g : Nat → Nat) (n : Nat) (h : ∀ i < n, f i = g i) :
    sumBelow f n = sumBelow g n := by
  induction n with
  | zero => rfl
  | succ n ih =>
    simp only [sumBelow]
    rw [ih fun i hi => h i (by omega), h n (by omega)]

theorem sumBelow_eq_sum (f : Nat → Nat) (n : Nat) : sumBelow f n = ∑ i ∈ Finset.range n, f i := by
  induction n with
  | zero => rfl
  | succ n ih => rw [Finset.sum_range_succ, ← ih]; rfl

theorem sumBelow_add (f : Nat → Nat) (m n : Nat) :
    sumBelow f (m + n) = sumBelow f m + sumBelow (fun i => f (m + i)) n := by
  induction n with
  | zero => rfl
  | succ n ih => rw [← Nat.add_assoc]; simp only [sumBelow, ih, Nat.add_assoc]

theorem sumBelow_le (f : Nat → Nat) (b n : Nat) (h : ∀ i < n, f i ≤ b) : sumBelow f n ≤ n * b := by
  induction n with
  | zero => simp [sumBelow]
  | succ n ih =>
    have h1 := ih fun i hi => h i (by omega)
    have h2 := h n (by omega)
    simp only [sumBelow, Nat.succ_mul]; omega

theorem popcount_le (bits : Nat) (x : Word) : popcount bits x ≤ bits := by
  have h := sumBelow_le (fun i => (x.getLsbD i).toNat) 1 bits fun i _ => Bool.toNat_le _
  simpa [popcount] using h

theorem popcount_congr (bits : Nat) (x y : Word) (h : ∀ i < bits, x.getLsbD i = y.getLsbD i) :
    popcount bits x = popcount bits y :=
  sumBelow_congr _ _ _ fun i hi => by rw [h i hi]

/-- The count as the number of positions whose bit is set (the glossary's "number of set (1) bits"). -/
theorem popcount_eq_card (bits : Nat) (x : Word) :
    popcount bits x = ((Finset.range bits).filter fun i => x.getLsbD i = true).card := by
  rw [popcount, sumBelow_eq_sum, Finset.card_filter]
  exact Finset.sum_congr rfl fun i _ => by cases x.getLsbD i <;> rfl

/-- Bit p of a little-endian word is bit p mod 8 of byte p div 8 (00_scope R10). -/
theorem memWord_getLsbD (ram : Nat → Byte) (j p : Nat) (hp : p < 64) :
    (memWord ram j).getLsbD p = (ram (j + p / 8)).getLsbD (p % 8) := by
  obtain ⟨q, r, hr, rfl⟩ : ∃ q r, r < 8 ∧ p = 8 * q + r :=
    ⟨p / 8, p % 8, Nat.mod_lt _ (by norm_num), by omega⟩
  have hq : q < 8 := by omega
  rw [show (8 * q + r) / 8 = q by omega, show (8 * q + r) % 8 = r by omega]
  unfold memWord
  simp only [BitVec.getLsbD_append]
  interval_cases q <;> simp [hr] <;> grind

/-- Data bits 8t+7:8t of a word are byte t (20_memory R68). -/
theorem memWord_byte (ram : Nat → Byte) (j t : Nat) (ht : t < 8) :
    (memWord ram j).extractLsb' (8 * t) 8 = ram (j + t) := by
  apply BitVec.eq_of_getLsbD_eq
  intro i hi
  rw [BitVec.getLsbD_extractLsb', memWord_getLsbD _ _ _ (by omega)]
  simp only [hi, decide_true, Bool.true_and]
  rw [show (8 * t + i) / 8 = t by omega, show (8 * t + i) % 8 = i by omega]

/-- Bit p of element i is bit i×w + p of the signature (00_scope R11). -/
theorem elem_getLsbD (w : Width) (ram : Nat → Byte) (i p : Nat) (hp : p < w.bits) :
    (elem w ram i).getLsbD p = sigBit ram (i * w.bits + p) := by
  cases w with
  | byte =>
    simp only [Width.bits] at hp
    simp only [elem, sigBit, Width.bits]
    rw [BitVec.getLsbD_setWidth, show (i * 8 + p) / 8 = i by omega,
      show (i * 8 + p) % 8 = p by omega]
    simp; omega
  | quad =>
    simp only [Width.bits] at hp
    simp only [elem, sigBit, Width.bits]
    rw [memWord_getLsbD _ _ _ hp, show (i * 64 + p) / 8 = 8 * i + p / 8 by omega,
      show (i * 64 + p) % 8 = p % 8 by omega]

/-- An element rests on its own bytes alone (20_memory R70). -/
theorem elem_congr (w : Width) (r r' : Nat → Byte) (i : Nat)
    (h : ∀ t < w.bytes, r (i * w.bytes + t) = r' (i * w.bytes + t)) : elem w r i = elem w r' i := by
  cases w with
  | byte => simpa [elem, Width.bytes] using congrArg (BitVec.setWidth 64) (h 0 (by decide))
  | quad =>
    simp only [Width.bytes] at h
    have e : ∀ t < 8, r (8 * i + t) = r' (8 * i + t) := fun t ht => by
      have := h t ht; rwa [Nat.mul_comm i 8] at this
    simp only [elem, memWord]
    rw [e 7 (by norm_num), e 6 (by norm_num), e 5 (by norm_num), e 4 (by norm_num),
      e 3 (by norm_num), e 2 (by norm_num), e 1 (by norm_num)]
    have := e 0 (by norm_num)
    rw [Nat.add_zero] at this
    rw [this]

/-- The distance of n elements rests on the first n×w/8 bytes alone (20_memory R69). -/
theorem distance_congr (w : Width) (a b a' b' : Nat → Byte) (n : Nat)
    (ha : ∀ j < n * w.bytes, a j = a' j) (hb : ∀ j < n * w.bytes, b j = b' j) :
    distance w a b n = distance w a' b' n := by
  refine sumBelow_congr _ _ _ fun i hi => ?_
  have hlt : ∀ t < w.bytes, i * w.bytes + t < n * w.bytes := fun t ht =>
    calc i * w.bytes + t < i * w.bytes + w.bytes := by omega
      _ = (i + 1) * w.bytes := by rw [Nat.succ_mul]
      _ ≤ n * w.bytes := Nat.mul_le_mul_right _ hi
  rw [elem_congr w a a' i fun t ht => ha _ (hlt t ht),
    elem_congr w b b' i fun t ht => hb _ (hlt t ht)]

theorem xorpop_le (w : Width) (x y : Word) : xorpop w x y ≤ w.bits := popcount_le _ _

theorem distance_le (w : Width) (a b : Nat → Byte) (n : Nat) : distance w a b n ≤ n * w.bits :=
  sumBelow_le _ _ _ fun _ _ => xorpop_le _ _ _

/-- The distance of m+n elements is that of the first m and that of the next n. -/
theorem distance_add (w : Width) (a b : Nat → Byte) (m n : Nat) :
    distance w a b (m + n) =
      distance w a b m + sumBelow (fun i => xorpop w (elem w a (m + i)) (elem w b (m + i))) n :=
  sumBelow_add _ _ _

/-- The bridged distance is the quadword distance (43_width_conversion R190, R193). -/
theorem bridge_eq_distance (a b : Nat → Byte) (n : Nat) :
    sumBelow (fun k => popcount 64 (toWord a k ^^^ toWord b k)) n = distance .quad a b n := rfl

end Sys2Proof.Machine
end

