-- ==== Sys2Proof/Laws/State.lean ====
section
/-!
SUPPORT. What each update of the state does to each field: true by definition, and tagged simp so
that no later proof unfolds a record update.
-/

namespace Sys2Proof.Machine

@[simp] theorem State.accept_cfg (s : State) (v : Word) :
    (s.accept v).cfg = s.cfg := rfl
@[simp] theorem State.accept_cmd (s : State) (v : Word) :
    (s.accept v).cmd = v := rfl
@[simp] theorem State.accept_busy (s : State) (v : Word) :
    (s.accept v).busy = true := rfl
@[simp] theorem State.accept_done (s : State) (v : Word) :
    (s.accept v).done = false := rfl
@[simp] theorem State.accept_overrun (s : State) (v : Word) :
    (s.accept v).overrun = false := rfl
@[simp] theorem State.accept_err (s : State) (v : Word) :
    (s.accept v).err = .noError := rfl
@[simp] theorem State.accept_eopnd (s : State) (v : Word) :
    (s.accept v).eopnd = .a := rfl
@[simp] theorem State.accept_lenA (s : State) (v : Word) :
    (s.accept v).lenA = s.lenA := rfl
@[simp] theorem State.accept_lenB (s : State) (v : Word) :
    (s.accept v).lenB = s.lenB := rfl
@[simp] theorem State.accept_operand (s : State) (v : Word) :
    (s.accept v).operand = s.operand := rfl
@[simp] theorem State.accept_result (s : State) (v : Word) :
    (s.accept v).result = s.result := rfl
@[simp] theorem State.accept_aram (s : State) (v : Word) :
    (s.accept v).aram = s.aram := rfl
@[simp] theorem State.accept_bram (s : State) (v : Word) :
    (s.accept v).bram = s.bram := rfl
@[simp] theorem State.accept_wram (s : State) (v : Word) :
    (s.accept v).wram = s.wram := rfl
@[simp] theorem State.accept_rst (s : State) (v : Word) :
    (s.accept v).rst = s.rst := rfl
@[simp] theorem State.accept_inputHazard (s : State) (v : Word) :
    (s.accept v).inputHazard = false := rfl
@[simp] theorem State.accept_script (s : State) (v : Word) :
    (s.accept v).script = s.script := rfl
@[simp] theorem State.accept_turns (s : State) (v : Word) :
    (s.accept v).turns = s.turns := rfl
@[simp] theorem State.accept_replies (s : State) (v : Word) :
    (s.accept v).replies = s.replies := rfl
@[simp] theorem State.accept_draws (s : State) (v : Word) :
    (s.accept v).draws = s.draws := rfl

@[simp] theorem State.complete_cfg (s : State) (v : Verdict) :
    (s.complete v).cfg = s.cfg := rfl
@[simp] theorem State.complete_cmd (s : State) (v : Verdict) :
    (s.complete v).cmd = s.cmd := rfl
@[simp] theorem State.complete_busy (s : State) (v : Verdict) :
    (s.complete v).busy = false := rfl
@[simp] theorem State.complete_done (s : State) (v : Verdict) :
    (s.complete v).done = true := rfl
@[simp] theorem State.complete_overrun (s : State) (v : Verdict) :
    (s.complete v).overrun = s.overrun := rfl
@[simp] theorem State.complete_err (s : State) (v : Verdict) :
    (s.complete v).err = v.err := rfl
@[simp] theorem State.complete_eopnd (s : State) (v : Verdict) :
    (s.complete v).eopnd = v.eopnd := rfl
@[simp] theorem State.complete_lenA (s : State) (v : Verdict) :
    (s.complete v).lenA = s.lenA := rfl
@[simp] theorem State.complete_lenB (s : State) (v : Verdict) :
    (s.complete v).lenB = s.lenB := rfl
@[simp] theorem State.complete_operand (s : State) (v : Verdict) :
    (s.complete v).operand = s.operand := rfl
@[simp] theorem State.complete_result (s : State) (v : Verdict) :
    (s.complete v).result = v.res := rfl
@[simp] theorem State.complete_aram (s : State) (v : Verdict) :
    (s.complete v).aram = s.aram := rfl
@[simp] theorem State.complete_bram (s : State) (v : Verdict) :
    (s.complete v).bram = s.bram := rfl
@[simp] theorem State.complete_wram (s : State) (v : Verdict) :
    (s.complete v).wram = s.wram.writeWords v.wr := rfl
@[simp] theorem State.complete_rst (s : State) (v : Verdict) :
    (s.complete v).rst = s.rst := rfl
@[simp] theorem State.complete_inputHazard (s : State) (v : Verdict) :
    (s.complete v).inputHazard = s.inputHazard := rfl
@[simp] theorem State.complete_script (s : State) (v : Verdict) :
    (s.complete v).script = s.script := rfl
@[simp] theorem State.complete_turns (s : State) (v : Verdict) :
    (s.complete v).turns = s.turns := rfl
@[simp] theorem State.complete_replies (s : State) (v : Verdict) :
    (s.complete v).replies = s.replies := rfl
@[simp] theorem State.complete_draws (s : State) (v : Verdict) :
    (s.complete v).draws = s.draws + 1 := rfl

@[simp] theorem State.completeUnspecified_cfg (s : State) (c : Bool) :
    (s.completeUnspecified c).cfg = s.cfg := rfl
@[simp] theorem State.completeUnspecified_cmd (s : State) (c : Bool) :
    (s.completeUnspecified c).cmd = s.cmd := rfl
@[simp] theorem State.completeUnspecified_busy (s : State) (c : Bool) :
    (s.completeUnspecified c).busy = false := rfl
@[simp] theorem State.completeUnspecified_done (s : State) (c : Bool) :
    (s.completeUnspecified c).done = true := rfl
@[simp] theorem State.completeUnspecified_overrun (s : State) (c : Bool) :
    (s.completeUnspecified c).overrun = s.overrun := rfl
@[simp] theorem State.completeUnspecified_err (s : State) (c : Bool) :
    (s.completeUnspecified c).err = Config.anyErr s.draws := rfl
@[simp] theorem State.completeUnspecified_eopnd (s : State) (c : Bool) :
    (s.completeUnspecified c).eopnd = Config.anyEopnd s.draws := rfl
@[simp] theorem State.completeUnspecified_lenA (s : State) (c : Bool) :
    (s.completeUnspecified c).lenA = s.lenA := rfl
@[simp] theorem State.completeUnspecified_lenB (s : State) (c : Bool) :
    (s.completeUnspecified c).lenB = s.lenB := rfl
@[simp] theorem State.completeUnspecified_operand (s : State) (c : Bool) :
    (s.completeUnspecified c).operand = s.operand := rfl
@[simp] theorem State.completeUnspecified_result (s : State) (c : Bool) :
    (s.completeUnspecified c).result = Config.anyResult s.draws := rfl
@[simp] theorem State.completeUnspecified_aram (s : State) (c : Bool) :
    (s.completeUnspecified c).aram = s.aram := rfl
@[simp] theorem State.completeUnspecified_bram (s : State) (c : Bool) :
    (s.completeUnspecified c).bram = s.bram := rfl
@[simp] theorem State.completeUnspecified_wram (s : State) (c : Bool) :
    (s.completeUnspecified c).wram =
      if c then Memory.ofBytes (Config.anyConverted s.draws) s.cfg.maxBytes else s.wram := rfl
@[simp] theorem State.completeUnspecified_rst (s : State) (c : Bool) :
    (s.completeUnspecified c).rst = s.rst := rfl
@[simp] theorem State.completeUnspecified_inputHazard (s : State) (c : Bool) :
    (s.completeUnspecified c).inputHazard = s.inputHazard := rfl
@[simp] theorem State.completeUnspecified_script (s : State) (c : Bool) :
    (s.completeUnspecified c).script = s.script := rfl
@[simp] theorem State.completeUnspecified_turns (s : State) (c : Bool) :
    (s.completeUnspecified c).turns = s.turns := rfl
@[simp] theorem State.completeUnspecified_replies (s : State) (c : Bool) :
    (s.completeUnspecified c).replies = s.replies := rfl
@[simp] theorem State.completeUnspecified_draws (s : State) (c : Bool) :
    (s.completeUnspecified c).draws = s.draws + 1 := rfl

@[simp] theorem State.applyReset_cfg (s : State) :
    (s.applyReset).cfg = s.cfg := rfl
@[simp] theorem State.applyReset_cmd (s : State) :
    (s.applyReset).cmd = 0 := rfl
@[simp] theorem State.applyReset_busy (s : State) :
    (s.applyReset).busy = false := rfl
@[simp] theorem State.applyReset_done (s : State) :
    (s.applyReset).done = false := rfl
@[simp] theorem State.applyReset_overrun (s : State) :
    (s.applyReset).overrun = false := rfl
@[simp] theorem State.applyReset_err (s : State) :
    (s.applyReset).err = .noError := rfl
@[simp] theorem State.applyReset_eopnd (s : State) :
    (s.applyReset).eopnd = .a := rfl
@[simp] theorem State.applyReset_lenA (s : State) :
    (s.applyReset).lenA = 0 := rfl
@[simp] theorem State.applyReset_lenB (s : State) :
    (s.applyReset).lenB = 0 := rfl
@[simp] theorem State.applyReset_operand (s : State) :
    (s.applyReset).operand = 0 := rfl
@[simp] theorem State.applyReset_result (s : State) :
    (s.applyReset).result = 0 := rfl
@[simp] theorem State.applyReset_aram (s : State) :
    (s.applyReset).aram = [] := rfl
@[simp] theorem State.applyReset_bram (s : State) :
    (s.applyReset).bram = [] := rfl
@[simp] theorem State.applyReset_wram (s : State) :
    (s.applyReset).wram = [] := rfl
@[simp] theorem State.applyReset_rst (s : State) :
    (s.applyReset).rst = s.rst := rfl
@[simp] theorem State.applyReset_inputHazard (s : State) :
    (s.applyReset).inputHazard = false := rfl
@[simp] theorem State.applyReset_script (s : State) :
    (s.applyReset).script = s.script := rfl
@[simp] theorem State.applyReset_turns (s : State) :
    (s.applyReset).turns = s.turns := rfl
@[simp] theorem State.applyReset_replies (s : State) :
    (s.applyReset).replies = s.replies := rfl
@[simp] theorem State.applyReset_draws (s : State) :
    (s.applyReset).draws = s.draws := rfl

@[simp] theorem State.reply_cfg (s : State) (r : Reply) :
    (s.reply r).cfg = s.cfg := rfl
@[simp] theorem State.reply_cmd (s : State) (r : Reply) :
    (s.reply r).cmd = s.cmd := rfl
@[simp] theorem State.reply_busy (s : State) (r : Reply) :
    (s.reply r).busy = s.busy := rfl
@[simp] theorem State.reply_done (s : State) (r : Reply) :
    (s.reply r).done = s.done := rfl
@[simp] theorem State.reply_overrun (s : State) (r : Reply) :
    (s.reply r).overrun = s.overrun := rfl
@[simp] theorem State.reply_err (s : State) (r : Reply) :
    (s.reply r).err = s.err := rfl
@[simp] theorem State.reply_eopnd (s : State) (r : Reply) :
    (s.reply r).eopnd = s.eopnd := rfl
@[simp] theorem State.reply_lenA (s : State) (r : Reply) :
    (s.reply r).lenA = s.lenA := rfl
@[simp] theorem State.reply_lenB (s : State) (r : Reply) :
    (s.reply r).lenB = s.lenB := rfl
@[simp] theorem State.reply_operand (s : State) (r : Reply) :
    (s.reply r).operand = s.operand := rfl
@[simp] theorem State.reply_result (s : State) (r : Reply) :
    (s.reply r).result = s.result := rfl
@[simp] theorem State.reply_aram (s : State) (r : Reply) :
    (s.reply r).aram = s.aram := rfl
@[simp] theorem State.reply_bram (s : State) (r : Reply) :
    (s.reply r).bram = s.bram := rfl
@[simp] theorem State.reply_wram (s : State) (r : Reply) :
    (s.reply r).wram = s.wram := rfl
@[simp] theorem State.reply_rst (s : State) (r : Reply) :
    (s.reply r).rst = s.rst := rfl
@[simp] theorem State.reply_inputHazard (s : State) (r : Reply) :
    (s.reply r).inputHazard = s.inputHazard := rfl
@[simp] theorem State.reply_script (s : State) (r : Reply) :
    (s.reply r).script = s.script := rfl
@[simp] theorem State.reply_turns (s : State) (r : Reply) :
    (s.reply r).turns = s.turns := rfl
@[simp] theorem State.reply_replies (s : State) (r : Reply) :
    (s.reply r).replies = r :: s.replies := rfl
@[simp] theorem State.reply_draws (s : State) (r : Reply) :
    (s.reply r).draws = s.draws := rfl

end Sys2Proof.Machine
end

