-- ==== Sys2Proof/Laws/Ops.lean ====
section
/-!
SUPPORT. What each shared operation can do, said once: the completion of every command, the host's
transactions, and the moves of a step.
-/

namespace Sys2Proof.Machine

/-- The case of Outcome of a command (10_state R41). -/
def verdictOf (s : State) : Instr → Verdict
  | .popcnt8 => succeed (popcount 8 s.operand) []
  | .popcnt64 => succeed (popcount 64 s.operand) []
  | .distB _ => distVerdict .byte s
  | .distQ _ => distVerdict .quad s
  | .dist32B _ => succeed (distance .byte s.aByte s.bByte 32) []
  | .dist4Q _ => succeed (distance .quad s.aByte s.bByte 4) []
  | .dist8Q _ => succeed (distance .quad s.aByte s.bByte 8) []
  | .distB2Q _ => bridgeVerdict s
  | .toWords _ => convertVerdict s

/-- Every command is one completion with its verdict. -/
theorem exec_eq_finish (i : Instr) (s : State) :
    exec i s = finish (isToWords i) (verdictOf s i) s := by
  cases i <;> rfl

theorem finish_of_quiet (c : Bool) (v : Verdict) (s : State) (h : s.inputHazard = false) :
    finish c v s = .next (s.complete v) := by
  simp [finish, h]

theorem finish_of_hazard (c : Bool) (v : Verdict) (s : State) (h : s.inputHazard = true) :
    finish c v s = .next (s.completeUnspecified c) := by
  simp [finish, h]

theorem exec_of_quiet (i : Instr) (s : State) (h : s.inputHazard = false) :
    exec i s = .next (s.complete (verdictOf s i)) := by
  rw [exec_eq_finish, finish_of_quiet _ _ _ h]

theorem exec_of_hazard (i : Instr) (s : State) (h : s.inputHazard = true) :
    exec i s = .next (s.completeUnspecified (isToWords i)) := by
  rw [exec_eq_finish, finish_of_hazard _ _ _ h]

theorem complete_keeps (s : State) (v : Verdict) : CompletionKeeps s (s.complete v) :=
  ⟨rfl, rfl, rfl, rfl, rfl, rfl, rfl, rfl, rfl, rfl, rfl, rfl, rfl⟩

theorem completeUnspecified_keeps (s : State) (c : Bool) :
    CompletionKeeps s (s.completeUnspecified c) :=
  ⟨rfl, rfl, rfl, rfl, rfl, rfl, rfl, rfl, rfl, rfl, rfl, rfl, rfl⟩

theorem completed_complete (s : State) (v : Verdict) :
    Completed s (s.complete v) v.err v.eopnd v.res :=
  ⟨rfl, rfl, rfl, rfl, rfl, complete_keeps s v⟩

/-- The verdicts of the variable-length distance (41_distance_variable R146, R147). -/
theorem distVerdict_cases (w : Width) (s : State) :
    (capacity w s < s.la ∧ distVerdict w s = raise .capacity .a) ∨
    (s.la ≤ capacity w s ∧ capacity w s < s.lb ∧ distVerdict w s = raise .capacity .b) ∨
    (s.la ≤ capacity w s ∧ s.lb ≤ capacity w s ∧ s.la ≠ s.lb ∧
      distVerdict w s = raise .lengthMismatch .a) ∨
    (s.la ≤ capacity w s ∧ s.la = s.lb ∧
      distVerdict w s = succeed (distance w s.aByte s.bByte s.la) []) := by
  unfold distVerdict
  split
  · exact .inl ⟨by omega, rfl⟩
  · split
    · exact .inr (.inl ⟨by omega, by omega, rfl⟩)
    · split
      · exact .inr (.inr (.inl ⟨by omega, by omega, by assumption, rfl⟩))
      · exact .inr (.inr (.inr ⟨by omega, by omega, rfl⟩))

/-- The verdicts of the bridged distance (43_width_conversion R193). -/
theorem bridgeVerdict_cases (s : State) :
    (s.cfg.maxBytes < s.la ∧ bridgeVerdict s = raise .capacity .a) ∨
    (s.la ≤ s.cfg.maxBytes ∧ s.cfg.maxBytes < s.lb ∧ bridgeVerdict s = raise .capacity .b) ∨
    (s.la ≤ s.cfg.maxBytes ∧ s.lb ≤ s.cfg.maxBytes ∧ s.la % 8 ≠ 0 ∧
      bridgeVerdict s = raise .invalidLength .a) ∨
    (s.la ≤ s.cfg.maxBytes ∧ s.lb ≤ s.cfg.maxBytes ∧ s.la % 8 = 0 ∧ s.lb % 8 ≠ 0 ∧
      bridgeVerdict s = raise .invalidLength .b) ∨
    (s.la ≤ s.cfg.maxBytes ∧ s.lb ≤ s.cfg.maxBytes ∧ s.la % 8 = 0 ∧ s.lb % 8 = 0 ∧ s.la ≠ s.lb ∧
      bridgeVerdict s = raise .lengthMismatch .a) ∨
    (s.la ≤ s.cfg.maxBytes ∧ s.la % 8 = 0 ∧ s.la = s.lb ∧
      bridgeVerdict s = succeed (distance .quad s.aByte s.bByte (s.la / 8)) []) := by
  simp only [← bridge_eq_distance]
  unfold bridgeVerdict
  split
  · exact .inl ⟨by omega, rfl⟩
  · split
    · exact .inr (.inl ⟨by omega, by omega, rfl⟩)
    · split
      · exact .inr (.inr (.inl ⟨by omega, by omega, by omega, rfl⟩))
      · split
        · exact .inr (.inr (.inr (.inl ⟨by omega, by omega, by omega, by omega, rfl⟩)))
        · split
          · exact .inr (.inr (.inr (.inr (.inl
              ⟨by omega, by omega, by omega, by omega, by omega, rfl⟩))))
          · exact .inr (.inr (.inr (.inr (.inr ⟨by omega, by omega, by omega, rfl⟩))))

/-- The verdicts of the conversion (43_width_conversion R192). -/
theorem convertVerdict_cases (s : State) :
    (s.cfg.maxBytes < s.la ∧ convertVerdict s = raise .capacity .a) ∨
    (s.la ≤ s.cfg.maxBytes ∧ s.la % 8 ≠ 0 ∧ convertVerdict s = raise .invalidLength .a) ∨
    (s.la ≤ s.cfg.maxBytes ∧ s.la % 8 = 0 ∧
      convertVerdict s = succeed (s.la / 8) (wordWrites s.aByte (s.la / 8))) := by
  unfold convertVerdict
  split
  · exact .inl ⟨by omega, rfl⟩
  · split
    · exact .inr (.inl ⟨by omega, by omega, rfl⟩)
    · exact .inr (.inr ⟨by omega, by omega, rfl⟩)

/-- Only the conversion's verdict writes W_RAM (10_state R41). -/
theorem verdictOf_wr (s : State) (i : Instr) (h : isToWords i = false) : (verdictOf s i).wr = [] := by
  cases i with
  | popcnt8 => rfl
  | popcnt64 => rfl
  | distB u =>
    rcases distVerdict_cases .byte s with h | h | h | h <;> simp [verdictOf, h, raise, succeed]
  | distQ u =>
    rcases distVerdict_cases .quad s with h | h | h | h <;> simp [verdictOf, h, raise, succeed]
  | dist32B u => rfl
  | dist4Q u => rfl
  | dist8Q u => rfl
  | distB2Q u =>
    rcases bridgeVerdict_cases s with h | h | h | h | h | h <;>
      simp [verdictOf, h, raise, succeed]
  | toWords u => simp [isToWords] at h

/-- A completion step, of a command or of an illegal word, answers a next state: one of two. -/
theorem completion_cases (s : State) :
    ∃ c v, (c = true → ∃ u, decodeWord s.cmd = .ok (.toWords u)) ∧
      completion s = finish c v s ∧
      ((∃ i, decodeWord s.cmd = .ok i ∧ c = isToWords i ∧ v = verdictOf s i) ∨
        (∃ r, decodeWord s.cmd = .error r) ∧ c = false ∧ v = raise .illegalCommand .a) := by
  unfold completion
  cases h : decodeWord s.cmd with
  | error r => exact ⟨false, _, by simp, rfl, .inr ⟨⟨r, rfl⟩, rfl, rfl⟩⟩
  | ok i =>
    refine ⟨isToWords i, verdictOf s i, ?_, exec_eq_finish i s, .inl ⟨i, rfl, rfl, rfl⟩⟩
    intro hc
    cases i with
    | toWords u => exact ⟨u, rfl⟩
    | _ => simp [isToWords] at hc

/-- A write to a target: what it leaves alone (20_memory R63). -/
theorem writeTarget_keeps (s : State) (v : Word) (t : Target) :
    (s.writeTarget v t).cfg = s.cfg ∧ (s.writeTarget v t).result = s.result ∧
    (s.writeTarget v t).wram = s.wram ∧ (s.writeTarget v t).rst = s.rst ∧
    (s.writeTarget v t).script = s.script ∧ (s.writeTarget v t).turns = s.turns ∧
    (s.writeTarget v t).replies = s.replies ∧ (s.writeTarget v t).draws = s.draws := by
  cases t with
  | cmd => simp only [State.writeTarget]; split <;> exact ⟨rfl, rfl, rfl, rfl, rfl, rfl, rfl, rfl⟩
  | _ => exact ⟨rfl, rfl, rfl, rfl, rfl, rfl, rfl, rfl⟩

/-- A write of anything but CMD is five updates of the inputs, each of which leaves the same when made
twice (20_memory R63, R71). -/
theorem writeTarget_shape (v : Word) (T : Target) (hT : T ≠ .cmd) :
    ∃ (fa fb : BitVec 32 → BitVec 32) (fo : Word → Word) (fA fB : Memory → Memory),
      (∀ x : State, x.writeTarget v T = { x with
        lenA := fa x.lenA, lenB := fb x.lenB, operand := fo x.operand
        aram := fA x.aram, bram := fB x.bram }) ∧
      (∀ n, fa (fa n) = fa n) ∧ (∀ n, fb (fb n) = fb n) ∧ (∀ w, fo (fo w) = fo w) ∧
      (∀ m, m.wf → ∀ j, (fA (fA m)).lookup j = (fA m).lookup j) ∧
      (∀ m, m.wf → ∀ j, (fB (fB m)).lookup j = (fB m).lookup j) := by
  have hm : ∀ k (m : Memory), m.wf → ∀ j,
      ((m.writeBytes k 8 v).writeBytes k 8 v).lookup j = (m.writeBytes k 8 v).lookup j := by
    intro k m h j
    rw [Memory.lookup_writeBytes _ _ _ _ _ (Memory.writeBytes_wf _ _ _ _ h),
      Memory.lookup_writeBytes _ _ _ _ _ h]
    split <;> rfl
  have hi : ∀ m : Memory, m.wf → ∀ j, (id (id m)).lookup j = (id m).lookup j := fun _ _ _ => rfl
  cases T with
  | cmd => exact (hT rfl).elim
  | lenA =>
    exact ⟨fun _ => v.setWidth 32, id, id, id, id, fun _ => rfl, by simp, by simp, by simp, hi, hi⟩
  | lenB =>
    exact ⟨id, fun _ => v.setWidth 32, id, id, id, fun _ => rfl, by simp, by simp, by simp, hi, hi⟩
  | operand =>
    exact ⟨id, id, fun _ => v, id, id, fun _ => rfl, by simp, by simp, by simp, hi, hi⟩
  | aRam k =>
    exact ⟨id, id, id, fun m => m.writeBytes k 8 v, id, fun _ => rfl,
      by simp, by simp, by simp, hm k, hi⟩
  | bRam k =>
    exact ⟨id, id, id, id, fun m => m.writeBytes k 8 v, fun _ => rfl,
      by simp, by simp, by simp, hi, hm k⟩
  | params | status | result | wRam k =>
    exact ⟨id, id, id, id, id, fun _ => rfl, by simp, by simp, by simp, hi, hi⟩

/-- The outcomes of a host write (20_memory R63, 60_exceptions R219, 70_reset_and_hazards R245). -/
theorem hostWrite_cases (off bits : Nat) (v : Word) (s : State) :
    (target s.cfg off bits = none ∧ hostWrite off bits v s = .next (s.reply (.write true))) ∨
    (∃ t, target s.cfg off bits = some t ∧ s.busy = true ∧ t.isInput = true ∧
      s.cfg.hazardPolicy = .stop ∧ hostWrite off bits v s = .fault .inputWrittenWhileBusy) ∨
    (∃ t, target s.cfg off bits = some t ∧ s.busy = true ∧ t.isInput = true ∧
      s.cfg.hazardPolicy = .goOn ∧ hostWrite off bits v s =
        .next ({ s.writeTarget v t with inputHazard := true }.reply (.write false))) ∨
    (∃ t, target s.cfg off bits = some t ∧ ¬(s.busy = true ∧ t.isInput = true) ∧
      hostWrite off bits v s = .next ((s.writeTarget v t).reply (.write false))) := by
  unfold hostWrite
  cases h : target s.cfg off bits with
  | none => exact .inl ⟨rfl, rfl⟩
  | some t =>
    dsimp only
    split
    · next hb =>
      obtain ⟨h1, h2⟩ := Bool.and_eq_true_iff.mp hb
      cases hp : s.cfg.hazardPolicy with
      | stop => exact .inr (.inl ⟨t, rfl, h1, h2, rfl, rfl⟩)
      | goOn => exact .inr (.inr (.inl ⟨t, rfl, h1, h2, rfl, rfl⟩))
    · next hb =>
      exact .inr (.inr (.inr ⟨t, rfl, fun h => hb (Bool.and_eq_true_iff.mpr h), rfl⟩))

/-- A host read changes the replies and the draw counter alone (20_memory R71). -/
theorem hostRead_eq (off bits : Nat) (s : State) :
    ∃ x e d, hostRead off bits s = { s with replies := .read x e :: s.replies, draws := d } := by
  unfold hostRead
  split
  · exact ⟨_, _, _, rfl⟩
  · exact ⟨_, _, _, rfl⟩

/-- BUSY is bit 0 of STATUS (10_state R24). -/
theorem statusWord_busy (s : State) : s.statusWord.getLsbD 0 = s.busy := by
  unfold State.statusWord
  simp only [BitVec.getLsbD_append]
  cases s.busy <;> simp

/-- The outcomes of a host statement. -/
theorem hostStmt_cases (h : HostStmt) (s : State) :
    (∃ level, h = .rst level ∧ hostStmt h s = .next (s.driveRst level)) ∨
    (s.rst = true ∧ hostStmt h s = .refused .transactionInReset ∧ ∀ level, h ≠ .rst level) ∨
    (s.rst = false ∧ ∃ off bits v, h = .wr off bits v ∧ hostStmt h s = hostWrite off bits v s) ∨
    (s.rst = false ∧ ∃ x e d sc, (h = .poll ∨ ∃ off bits, h = .rd off bits) ∧
      hostStmt h s =
        .next { s with replies := .read x e :: s.replies, draws := d, script := sc }) := by
  cases h with
  | rst level => exact .inl ⟨level, rfl, rfl⟩
  | rd off bits =>
    by_cases hr : s.rst = true
    · exact .inr (.inl ⟨hr, by simp [hostStmt, hr], by simp⟩)
    · obtain ⟨x, e, d, hx⟩ := hostRead_eq off bits s
      refine .inr (.inr (.inr ⟨by simpa using hr, x, e, d, s.script, .inr ⟨off, bits, rfl⟩, ?_⟩))
      simp [hostStmt, hr, hx]
  | wr off bits v =>
    by_cases hr : s.rst = true
    · exact .inr (.inl ⟨hr, by simp [hostStmt, hr], by simp⟩)
    · exact .inr (.inr (.inl ⟨by simpa using hr, off, bits, v, rfl, by simp [hostStmt, hr]⟩))
  | poll =>
    by_cases hr : s.rst = true
    · exact .inr (.inl ⟨hr, by simp [hostStmt, hr], by simp⟩)
    · obtain ⟨x, e, d, hx⟩ := hostRead_eq 0x010 64 s
      refine .inr (.inr (.inr ⟨by simpa using hr, x, e, d, (hostPoll s).script, .inl rfl, ?_⟩))
      simp [hostStmt, hr, hostPoll, hx]

/-- The moves of a step (20_memory R73): the Engine's completion, the host's statement, or a move with
nothing to do. -/
theorem step_cases (s : State) :
    (∃ rest, EngineMoves s rest ∧ step s = completion { s with turns := rest }) ∨
    (∃ h after rest, HostMoves s h after rest ∧
      step s = hostStmt h { s with turns := rest, script := after }) ∨
    (∃ rest, step s = .next { s with turns := rest }) := by
  have hsc : s.script = [] ∨ ∃ h after, s.script = h :: after := by
    cases s.script with
    | nil => exact .inl rfl
    | cons h after => exact .inr ⟨h, after, rfl⟩
  unfold step nextTurn
  split
  · next ts ht =>
    by_cases hb : s.busy = true
    · exact .inl ⟨ts, ⟨hb, .inl ht⟩, by simp [engineTurn, hb]⟩
    · exact .inr (.inr ⟨ts, by simp [engineTurn, hb]⟩)
  · next ts ht =>
    rcases hsc with hs | ⟨h, after, hs⟩
    · exact .inr (.inr ⟨ts, by simp [hostTurn, hs]⟩)
    · exact .inr (.inl ⟨h, after, ts, ⟨hs, .inl ht⟩, by simp [hostTurn, hs]⟩)
  · next ht =>
    have e : ({ s with turns := [] } : State) = s := by rw [← ht]
    by_cases hb : s.busy = true
    · exact .inl ⟨[], ⟨hb, .inr ⟨ht, rfl⟩⟩, by rw [e]; simp [engineTurn, hb]⟩
    · rcases hsc with hs | ⟨h, after, hs⟩
      · exact .inr (.inr ⟨[], by rw [e]; simp [hostTurn, hs, hb]⟩)
      · exact .inr (.inl ⟨h, after, [], ⟨hs, .inr ⟨ht, rfl, by simpa using hb⟩⟩, by
          simp [hostTurn, hs, hb, ← ht]⟩)

end Sys2Proof.Machine
end

