-- ==== Sys2Proof/Laws/PerInstr.lean ====
section
/-!
SUPPORT. Statements for all commands, one lemma per constructor: the reserved bits of an encoding, and
its row of the opcode table.
-/

namespace Sys2Proof.Laws

/-- 30_encoding R98: the encoding of a command has RSV = 0, so it is below 256. -/
def RsvZero.Statement (i : Instr) : Prop := (encode i).toNat < 256

theorem RsvZero.popcnt8 : RsvZero.Statement .popcnt8 := by unfold Statement; decide
theorem RsvZero.popcnt64 : RsvZero.Statement .popcnt64 := by unfold Statement; decide
theorem RsvZero.distB (u : Unroll) : RsvZero.Statement (.distB u) := by
  unfold Statement; cases u <;> decide
theorem RsvZero.distQ (u : Unroll) : RsvZero.Statement (.distQ u) := by
  unfold Statement; cases u <;> decide
theorem RsvZero.dist32B (u : Unroll) : RsvZero.Statement (.dist32B u) := by
  unfold Statement; cases u <;> decide
theorem RsvZero.dist4Q (u : Unroll) : RsvZero.Statement (.dist4Q u) := by
  unfold Statement; cases u <;> decide
theorem RsvZero.dist8Q (u : Unroll) : RsvZero.Statement (.dist8Q u) := by
  unfold Statement; cases u <;> decide
theorem RsvZero.distB2Q (u : Unroll) : RsvZero.Statement (.distB2Q u) := by
  unfold Statement; cases u <;> decide
theorem RsvZero.toWords (u : Unroll) : RsvZero.Statement (.toWords u) := by
  unfold Statement; cases u <;> decide

/-- The `match` of a command's row in spec/opcode_table.json. -/
def tableMatch : Instr → Word
  | .popcnt8 => 0x01
  | .popcnt64 => 0x11
  | .distB _ => 0x02
  | .distQ _ => 0x12
  | .dist32B _ => 0x03
  | .dist4Q _ => 0x14
  | .dist8Q _ => 0x15
  | .distB2Q _ => 0x06
  | .toWords _ => 0x07

/-- The `mask` of a command's row in spec/opcode_table.json. -/
def tableMask : Instr → Word
  | .popcnt8 => 0xFFFFFFFFFFFFFFFF
  | .popcnt64 => 0xFFFFFFFFFFFFFFFF
  | .distB _ => 0xFFFFFFFFFFFFFF1F
  | .distQ _ => 0xFFFFFFFFFFFFFF1F
  | .dist32B _ => 0xFFFFFFFFFFFFFF1F
  | .dist4Q _ => 0xFFFFFFFFFFFFFF1F
  | .dist8Q _ => 0xFFFFFFFFFFFFFF1F
  | .distB2Q _ => 0xFFFFFFFFFFFFFF1F
  | .toWords _ => 0xFFFFFFFFFFFFFF1F

/-- The opcode table: the encoding of a command, under its row's mask, is its row's match. -/
def TableRow.Statement (i : Instr) : Prop := encode i &&& tableMask i = tableMatch i

theorem TableRow.popcnt8 : TableRow.Statement .popcnt8 := by unfold Statement; decide
theorem TableRow.popcnt64 : TableRow.Statement .popcnt64 := by unfold Statement; decide
theorem TableRow.distB (u : Unroll) : TableRow.Statement (.distB u) := by
  unfold Statement; cases u <;> decide
theorem TableRow.distQ (u : Unroll) : TableRow.Statement (.distQ u) := by
  unfold Statement; cases u <;> decide
theorem TableRow.dist32B (u : Unroll) : TableRow.Statement (.dist32B u) := by
  unfold Statement; cases u <;> decide
theorem TableRow.dist4Q (u : Unroll) : TableRow.Statement (.dist4Q u) := by
  unfold Statement; cases u <;> decide
theorem TableRow.dist8Q (u : Unroll) : TableRow.Statement (.dist8Q u) := by
  unfold Statement; cases u <;> decide
theorem TableRow.distB2Q (u : Unroll) : TableRow.Statement (.distB2Q u) := by
  unfold Statement; cases u <;> decide
theorem TableRow.toWords (u : Unroll) : TableRow.Statement (.toWords u) := by
  unfold Statement; cases u <;> decide

end Sys2Proof.Laws
end

