-- ==== Sys2Proof/Laws/Pipeline.lean ====
section
/-!
SUPPORT. The levels of the population count tree as arithmetic on numbers: a level of a number whose
fields do not meet is the level of each part.
-/

namespace Sys2Proof.Machine

/-- One level of the tree on numbers, without the wrap at 64 bits (40_popcount R122). -/
def natLevel (mask d x : Nat) : Nat := (x &&& mask) + ((x >>> d) &&& mask)

theorem natLevel_le (mask d x : Nat) : natLevel mask d x ≤ 2 * mask := by
  have h1 : x &&& mask ≤ mask := Nat.and_le_right
  have h2 : (x >>> d) &&& mask ≤ mask := Nat.and_le_right
  unfold natLevel
  omega

/-- A level whose sum fits 64 bits is the level of the number. -/
theorem treeLevel_toNat (mask x : Word) (d : Nat)
    (h : natLevel mask.toNat d x.toNat < 2 ^ 64) :
    (treeLevel mask d x).toNat = natLevel mask.toNat d x.toNat := by
  unfold treeLevel natLevel at *
  simp only [BitVec.toNat_add, BitVec.toNat_and, BitVec.toNat_ushiftRight]
  exact Nat.mod_eq_of_lt h

/-- AND works on the low k bits and on the bits above them apart. -/
theorem land_split (k a b c d : Nat) (ha : a < 2 ^ k) (hc : c < 2 ^ k) :
    (a + 2 ^ k * b) &&& (c + 2 ^ k * d) = (a &&& c) + 2 ^ k * (b &&& d) := by
  have hac : a &&& c < 2 ^ k := lt_of_le_of_lt Nat.and_le_left ha
  apply Nat.eq_of_testBit_eq
  intro i
  rw [Nat.testBit_and, add_comm a, add_comm c, add_comm (a &&& c),
    Nat.testBit_two_pow_mul_add _ ha, Nat.testBit_two_pow_mul_add _ hc,
    Nat.testBit_two_pow_mul_add _ hac]
  split <;> simp

/-- A level splits at k bits where the mask keeps nothing of the bits shifted across. -/
theorem natLevel_split (k d m mask a b : Nat) (ha : a < 2 ^ k) (hd : d ≤ k)
    (hm : m < 2 ^ (k - d)) :
    natLevel (m + 2 ^ k * mask) d (a + 2 ^ k * b) =
      natLevel m d a + 2 ^ k * natLevel mask d b := by
  have hk : 2 ^ k = 2 ^ d * 2 ^ (k - d) := by rw [← pow_add]; congr 1; omega
  have hm' : m < 2 ^ k := lt_of_lt_of_le hm (Nat.pow_le_pow_right (by norm_num) (by omega))
  have hlow : a >>> d < 2 ^ (k - d) := by
    rw [Nat.shiftRight_eq_div_pow]
    exact Nat.div_lt_of_lt_mul (by rw [← hk]; exact ha)
  have hshift : (a + 2 ^ k * b) >>> d =
      (a >>> d + 2 ^ (k - d) * (b % 2 ^ d)) + 2 ^ k * (b >>> d) := by
    have hb : 2 ^ (k - d) * b = 2 ^ (k - d) * (b % 2 ^ d) + 2 ^ k * (b / 2 ^ d) := by
      conv_lhs => rw [← Nat.div_add_mod b (2 ^ d)]
      rw [hk]; ring
    simp only [Nat.shiftRight_eq_div_pow]
    rw [show a + 2 ^ k * b = a + 2 ^ d * (2 ^ (k - d) * b) by rw [hk]; ring,
      Nat.add_mul_div_left _ _ (by positivity), hb]
    ring
  have hsum : a >>> d + 2 ^ (k - d) * (b % 2 ^ d) < 2 ^ k := by
    have h3 : b % 2 ^ d < 2 ^ d := Nat.mod_lt _ (by positivity)
    have h4 : 2 ^ (k - d) * (b % 2 ^ d) + 2 ^ (k - d) ≤ 2 ^ (k - d) * 2 ^ d := by nlinarith
    rw [hk, mul_comm (2 ^ d)]
    omega
  have hdrop : (a >>> d + 2 ^ (k - d) * (b % 2 ^ d)) &&& m = (a >>> d) &&& m := by
    simpa using land_split (k - d) (a >>> d) (b % 2 ^ d) m 0 hlow hm
  unfold natLevel
  rw [land_split k a b m mask ha hm', hshift, land_split k _ _ m mask hsum hm', hdrop]
  ring

end Sys2Proof.Machine
end

