-- ==== Sys2Proof/Laws/Port.lean ====
section
/-!
SUPPORT. The address map (20_memory R61): the target of each legal offset, and where a target comes
from.
-/

namespace Sys2Proof.Machine

theorem target_width (c : Config) (off bits : Nat) (h : bits ≠ 64) : target c off bits = none :=
  if_pos h

theorem target_misaligned (c : Config) (off bits : Nat) (h : off % 8 ≠ 0) :
    target c off bits = none := by
  by_cases hb : bits ≠ 64
  · exact target_width c off bits hb
  · unfold target
    rw [if_neg hb, if_pos h]

/-- Past the registers the address map is that of the RAM windows (20_memory R61). -/
theorem target_eq_ramTarget (c : Config) (off : Nat) (h8 : off % 8 = 0) (h : 0x1000 ≤ off) :
    target c off 64 = ramTarget c off := by
  unfold target
  split_ifs <;> first | rfl | omega

/-- The A_RAM window (20_memory R61). -/
theorem target_aRam (c : Config) (k : Nat) (hk : 8 * k < c.maxBytes) :
    target c (0x1000 + 8 * k) 64 = some (.aRam (8 * k)) := by
  rw [target_eq_ramTarget c _ (by omega) (by omega), ramTarget, if_pos (by omega),
    Nat.add_sub_cancel_left]

/-- The B_RAM window: A_RAM ends below it (20_memory R61, 00_scope R8). -/
theorem target_bRam (c : Config) (k : Nat) (h : c.Legal) (hk : 8 * k < c.maxBytes) :
    target c (0x2000 + 8 * k) 64 = some (.bRam (8 * k)) := by
  have hc : c.maxBytes ≤ 4096 := h.2.2
  rw [target_eq_ramTarget c _ (by omega) (by omega), ramTarget, if_neg (by omega),
    if_pos (by omega), Nat.add_sub_cancel_left]

/-- The W_RAM window, by words: B_RAM ends below it (20_memory R61, 00_scope R8). -/
theorem target_wRam (c : Config) (k : Nat) (h : c.Legal) (hk : 8 * k < c.maxBytes) :
    target c (0x3000 + 8 * k) 64 = some (.wRam k) := by
  have hc : c.maxBytes ≤ 4096 := h.2.2
  have hw : (0x3000 + 8 * k - 0x3000) / 8 = k := by omega
  have hb : ¬(0x2000 ≤ 0x3000 + 8 * k ∧ 0x3000 + 8 * k < 0x2000 + c.maxBytes) := by omega
  rw [target_eq_ramTarget c _ (by omega) (by omega), ramTarget, if_neg (by omega), if_neg hb,
    if_pos (by omega), hw]

/-- Where a target comes from: a register's own offset, or an aligned offset inside a RAM window. -/
theorem target_some (c : Config) (off bits : Nat) (t : Target) (h : target c off bits = some t) :
    bits = 64 ∧ off % 8 = 0 ∧
      match t with
      | .params => off = 0x000
      | .cmd => off = 0x008
      | .status => off = 0x010
      | .lenA => off = 0x018
      | .lenB => off = 0x020
      | .operand => off = 0x028
      | .result => off = 0x030
      | .aRam j => off = 0x1000 + j ∧ j < c.maxBytes
      | .bRam j => off = 0x2000 + j ∧ j < c.maxBytes
      | .wRam k => off = 0x3000 + 8 * k ∧ 8 * k < c.maxBytes := by
  by_cases hb : bits = 64
  · by_cases ho : off % 8 = 0
    · refine ⟨hb, ho, ?_⟩
      unfold target ramTarget at h
      rw [if_neg (by simpa using hb), if_neg (by simpa using ho)] at h
      repeat' split at h
      all_goals (try (obtain rfl := Option.some.inj h); try dsimp only)
      all_goals first | assumption | (cases h; done) | omega
    · rw [target_misaligned c off bits ho] at h; cases h
  · rw [target_width c off bits hb] at h; cases h

/-- A legal write to a RAM window stays inside the RAM (20_memory R61, 00_scope R8). -/
theorem target_ram_bound (c : Config) (off bits j : Nat) (hc : c.Legal)
    (h : target c off bits = some (.aRam j) ∨ target c off bits = some (.bRam j)) :
    j + 8 ≤ c.maxBytes := by
  obtain ⟨h1, -, -⟩ := hc
  rcases h with h | h <;> obtain ⟨-, h8, h2, h3⟩ := target_some c off bits _ h <;> omega

/-- A word whose bytes are these is the word (00_scope R10). -/
theorem memWord_eq (ram : Nat → Byte) (j : Nat) (x : Word)
    (h : ∀ t < 8, ram (j + t) = x.extractLsb' (8 * t) 8) : memWord ram j = x := by
  apply BitVec.eq_of_getLsbD_eq
  intro p hp
  rw [memWord_getLsbD _ _ _ hp, h _ (by omega), BitVec.getLsbD_extractLsb',
    show 8 * (p / 8) + p % 8 = p by omega]
  simp; omega

end Sys2Proof.Machine
end

