-- ==== Sys2Proof/Laws/Run.lean ====
section
/-!
SUPPORT. A run of the machine, one step at a time.
-/

namespace Sys2Proof.Machine

theorem run_zero (s : State) : Host.Core.run Sys2Proof.core 0 s = Host.Outcome.next s := rfl

/-- A run of any machine whose first step answers `t` goes on from `t`. -/
theorem core_run_of_step (M : Host.Core) (k : Nat) (s t : M.State) (h : M.step s = .next t) :
    M.run (k + 1) s = M.run k t := by
  rw [Host.Core.run, h]

/-- A run whose first step answers `t` goes on from `t`. -/
theorem run_of_step (k : Nat) (s t : State) (h : step s = .next t) :
    Host.Core.run Sys2Proof.core (k + 1) s = Host.Core.run Sys2Proof.core k t :=
  core_run_of_step Sys2Proof.core k s t h

end Sys2Proof.Machine
end

