-- ==== Sys2Proof/Tests/Slice0.lean ====
section
/-!
SUPPORT. Tests. Expected values are the spec's: the encodings of 30_encoding R91 to R100, and the
vectors V1 to V9 of 95_test_vectors. Then, for each obligation with hypotheses, states that meet them.
-/

namespace Sys2Proof.Tests

-- One theorem at a time: compiled side by side, these reserve more memory than the check allows.
set_option Elab.async false

open Sys2Proof Sys2Proof.Machine

/-! ### Helpers: small states -/

/-- After reset, with LEN_A and LEN_B. -/
def lens (a b : Nat) : State :=
  { State.reset with lenA := BitVec.ofNat 32 a, lenB := BitVec.ofNat 32 b }

/-- The A pattern of V3 and V4. -/
def patternA : Memory := (List.range 64).map fun i => (i, BitVec.ofNat 8 (37 * i + 11))

/-- The B pattern of V3 and V4. -/
def patternB : Memory := (List.range 64).map fun i => (i, BitVec.ofNat 8 (91 * i + 5))

/-- The machine of V3 with its lengths. -/
def v3 (a b : Nat) : State := { lens a b with aram := patternA, bram := patternB }

/-- n bytes of one value. -/
def filled (n : Nat) (x : Byte) : Memory := (List.range n).map fun i => (i, x)

/-- The bytes 1, 2, .. n. -/
def counting (n : Nat) : Memory := (List.range n).map fun i => (i, BitVec.ofNat 8 (i + 1))

/-- The state after one step, if there is one. -/
def after (s : State) : Option State :=
  match step s with
  | .next t => some t
  | .fault _ => none
  | .refused _ => none

/-- STATUS and RESULT after the command word has run as the next step. -/
def outcome (s : State) (w : Nat) : Option (Word × Word) :=
  (after (s.withFetchWord 64 w)).map fun t => (t.statusWord, t.result)

/-- A command in flight. -/
def inFlight (s : State) (c : Word) : State := { s with cmd := c, busy := true }

/-- The machine with these host statements left, the host to move next. -/
def hosted (s : State) (script : List HostStmt) : State :=
  { s with script := script, turns := [.host] }

/-- The smallest legal capacity (00_scope R8). -/
def small (s : State) : State := { s with cfg := { maxBytes := 64, hazardPolicy := .goOn } }

/-- A machine that stops at an input hazard. -/
def stopping (s : State) : State := { s with cfg := { maxBytes := 4096, hazardPolicy := .stop } }

/-! ### WellFormed: the ill-formed terms (30_encoding R96, R101 (d)) -/

theorem test_illformed_distB : (Instr.distB .full).wellFormed = false := by decide
theorem test_illformed_distQ : (Instr.distQ .full).wellFormed = false := by decide
theorem test_illformed_distB2Q : (Instr.distB2Q .full).wellFormed = false := by decide
theorem test_illformed_toWords : (Instr.toWords .full).wellFormed = false := by decide
theorem test_wellformed_dist4Q : (Instr.dist4Q .full).wellFormed = true := by decide

/-! ### Decoding: words written out as RSV, U, W, OP (30_encoding R91 to R94) -/

/-- A command word from its fields, written bit by bit. -/
def word (rsv : BitVec 56) (u : BitVec 3) (w : BitVec 1) (op : BitVec 4) : Nat :=
  (rsv ++ u ++ w ++ op : BitVec 64).toNat

theorem test_decode_popcnt8 :
    decodeTableWord 64 (word 0 0b000#3 0b0#1 0b0001#4) = some .popcnt8 := by decide
theorem test_decode_popcnt64 :
    decodeTableWord 64 (word 0 0b000#3 0b1#1 0b0001#4) = some .popcnt64 := by decide
theorem test_decode_distB :
    decodeTableWord 64 (word 0 0b110#3 0b0#1 0b0010#4) = some (.distB .k16) := by decide
theorem test_decode_distQ :
    decodeTableWord 64 (word 0 0b011#3 0b1#1 0b0010#4) = some (.distQ .k4) := by decide
theorem test_decode_dist32B :
    decodeTableWord 64 (word 0 0b111#3 0b0#1 0b0011#4) = some (.dist32B .full) := by decide
theorem test_decode_dist4Q :
    decodeTableWord 64 (word 0 0b100#3 0b1#1 0b0100#4) = some (.dist4Q .k6) := by decide
theorem test_decode_dist8Q :
    decodeTableWord 64 (word 0 0b101#3 0b1#1 0b0101#4) = some (.dist8Q .k8) := by decide
theorem test_decode_distB2Q :
    decodeTableWord 64 (word 0 0b010#3 0b0#1 0b0110#4) = some (.distB2Q .k3) := by decide
theorem test_decode_toWords :
    decodeTableWord 64 (word 0 0b001#3 0b0#1 0b0111#4) = some (.toWords .k2) := by decide

/-- The illegal words of V7, with the class of 30_encoding R101 each falls in. -/
theorem test_decode_illegal :
    decodeWord 0x00 = .error .reservedOp ∧ decodeWord 0x08 = .error .reservedOp ∧
    decodeWord 0x0F = .error .reservedOp ∧ decodeWord 0x21 = .error .popcountUnroll ∧
    decodeWord 0x13 = .error .widthNotByte ∧ decodeWord 0x04 = .error .widthNotQuad ∧
    decodeWord 0x16 = .error .widthNotByte ∧ decodeWord 0xE6 = .error .fullUnroll ∧
    decodeWord 0xE7 = .error .fullUnroll ∧ decodeWord 0xE2 = .error .fullUnroll ∧
    decodeWord 0x0000000000000111 = .error .reservedBits ∧
    decodeWord 0x8000000000000011 = .error .reservedBits := by decide

/-- Short byte strings hold no command word. -/
theorem test_decode_truncated :
    decodeBytes [0x11, 0, 0, 0, 0, 0, 0] = .error .truncated := by decide

/-- Programs P1 and P2 of 95_test_vectors: `DIST.B/16`, `DIST4Q/full`. -/
theorem test_assemble :
    assemble "DIST.B/16" = some 0xC2 ∧ assemble "DIST4Q/full" = some 0xF4 ∧
    assemble "POPCNT64" = some 0x11 ∧ assemble "DIST.Q/full" = none := by decide

/-! ### Commands: one step each (95_test_vectors V2 to V7) -/

theorem test_popcnt8_low_byte_only :
    outcome { State.reset with operand := 0x1FF } 0x01 = some (0x2, 8) := by decide
theorem test_popcnt8_above_ignored :
    outcome { State.reset with operand := 0xFFFFFFFFFFFFFF00 } 0x01 = some (0x2, 0) := by decide
theorem test_popcnt64_mixed :
    outcome { State.reset with operand := 0x0123456789ABCDEF } 0x11 = some (0x2, 32) := by decide
theorem test_popcnt64_top_bytes :
    outcome { State.reset with operand := 0xFFFFFFFFFFFFFF00 } 0x11 = some (0x2, 56) := by decide

theorem test_distB_v3 : outcome (v3 13 13) 0xA2 = some (0x2, 51) := by decide
theorem test_distB_capacity_first :
    outcome (v3 4096 4097) 0x02 = some (0x142, 0xFFFFFFFFFFFFFFFF) := by decide
theorem test_distQ_v4 : outcome (v3 3 3) 0x72 = some (0x2, 96) := by decide
theorem test_distQ_mismatch :
    outcome (v3 10 11) 0x12 = some (0x12, 0xFFFFFFFFFFFFFFFF) := by decide
theorem test_dist32B_lengths_ignored : outcome (v3 10 11) 0x03 = some (0x2, 125) := by decide
theorem test_dist32B_maximum :
    outcome { State.reset with aram := filled 32 0, bram := filled 32 0xFF } 0xE3
      = some (0x2, 256) := by decide
theorem test_dist4Q_v5 : outcome (v3 0 0) 0xF4 = some (0x2, 125) := by decide
theorem test_dist8Q_no_capacity :
    outcome (v3 0xFFFFFFFF 0) 0x15 = some (0x2, 248) := by decide +kernel
theorem test_dist8Q_maximum :
    outcome { State.reset with aram := filled 64 0xFF, bram := filled 64 0 } 0xF5
      = some (0x2, 512) := by decide +kernel
theorem test_distB2Q_v6 :
    outcome { lens 16 16 with aram := counting 16, bram := filled 16 0 } 0x06
      = some (0x2, 33) := by decide
theorem test_distB2Q_length_of_B :
    outcome (lens 16 12) 0x06 = some (0x122, 0xFFFFFFFFFFFFFFFF) := by decide
theorem test_toWords_little_endian :
    (after ({ lens 16 0 with aram := counting 16 }.withFetchWord 64 0x07)).map
      (fun t => (t.statusWord, t.result,
        memWord (t.wram.view fun _ => 0) 0, memWord (t.wram.view fun _ => 0) 8))
      = some (0x2, 2, 0x0807060504030201, 0x100F0E0D0C0B0A09) := by decide
theorem test_toWords_length :
    outcome (lens 12 0) 0x07 = some (0x22, 0xFFFFFFFFFFFFFFFF) := by decide
theorem test_illegal_before_mismatch :
    outcome (lens 10 11) 0xE2 = some (0x32, 0xFFFFFFFFFFFFFFFF) := by decide
theorem test_popcount_tree :
    popcountTree 0x0123456789ABCDEF true = 32 ∧ popcountTree 0x1FF false = 8 := by decide
theorem test_canonical_remainder :
    canonical 16 .byte (patternA.view fun _ => 0) (patternB.view fun _ => 0) 17 = 69 := by decide

/-! ### The host port (95_test_vectors V8, V9) -/

theorem test_read_params : (hostRead 0x000 64 State.reset).replies = [.read 0x1000 false] := by
  decide
theorem test_read_misaligned : (hostRead 0x004 64 State.reset).replies = [.read 0 true] := by decide
theorem test_read_narrow : (hostRead 0x010 32 State.reset).replies = [.read 0 true] := by decide
theorem test_read_unmapped :
    (hostRead 0x038 64 State.reset).replies = [.read 0 true] ∧
    (hostRead 0x4000 64 State.reset).replies = [.read 0 true] := by decide
theorem test_write_length_drops_high_bits :
    (after (hosted State.reset [.wr 0x018 64 0x100000005])).map (fun t => (t.lenA, t.replies))
      = some (5, [.write false]) := by decide
theorem test_write_unmapped :
    (after (hosted State.reset [.wr 0x0FF8 64 1])).map (fun t => t.replies)
      = some [.write true] := by decide
theorem test_write_ram_bytes :
    (after (hosted State.reset [.wr 0x1000 64 0x0807060504030201])).map (fun t => t.aram)
      = some (counting 8) := by decide
theorem test_accept :
    (after (hosted { State.reset with done := true, overrun := true, err := .capacity, eopnd := .b }
      [.wr 0x008 64 0x11])).map (fun t => (t.cmd, t.statusWord)) = some (0x11, 1) := by decide
theorem test_overrun :
    (after (hosted (inFlight State.reset 0x11) [.wr 0x008 64 0x01])).map
      (fun t => (t.cmd, t.statusWord)) = some (0x11, 5) := by decide
theorem test_overrun_survives_completion :
    (after { inFlight State.reset 0x11 with overrun := true }).map (fun t => t.statusWord)
      = some 6 := by decide
/-- 20_memory R71, 70_reset_and_hazards R245: after a TOWORDS with an input hazard every byte of W_RAM is
written, so two reads of a word agree. -/
theorem test_hazard_writes_wram :
    (after { inFlight (small (lens 8 0)) 0x07 with inputHazard := true }).map
      (fun t => (t.busy, (List.range 65).map fun j => (t.wram.lookup j).isSome))
      = some (false, List.replicate 64 true ++ [false]) := by decide +kernel
theorem test_hazard_stops :
    step (hosted (stopping (inFlight State.reset 0x02)) [.wr 0x018 64 7])
      = .fault .inputWrittenWhileBusy := rfl
theorem test_reset_while_busy :
    (after (hosted { inFlight State.reset 0x11 with result := 5, aram := counting 8 }
      [.rst true])).map (fun t => (t.statusWord, t.result, t.aram, t.rst))
      = some (0, 0, [], true) := by decide
theorem test_load : loadA [1, 2, 3, 4, 5, 6, 7, 8, 9] =
    [.wr 0x1000 64 0x0807060504030201, .wr 0x1008 64 9] := by decide
theorem test_run_command : runCommand 0x11 = [.wr 0x008 64 0x11, .poll] := by decide

/-! ### Witnesses: states that meet the hypotheses of each obligation, clause by clause -/

/-- EncodedBytesDecode: the hint 16, the largest a variable-length command takes. -/
theorem test_witness_EncodedBytesDecode : (Instr.distB .k16).wellFormed = true := by decide

/-- StepRunsTheCommand: the Engine's turn is listed, and the turns are used up. -/
theorem test_witness_StepRunsTheCommand :
    (EngineMoves { inFlight (v3 4 4) 0x12 with turns := [.engine, .host] } [.host] ∧
      decodeWord 0x12 = .ok (.distQ .k1)) ∧
    EngineMoves (inFlight (v3 4 4) 0x12) [] := by decide

theorem test_witness_IllegalCommandCompletes :
    EngineMoves (inFlight (lens 10 11) 0xE2) [] ∧ (lens 10 11).inputHazard = false ∧
      IllegalWord 0xE2 := ⟨by decide, by decide, .fullUnroll, by decide⟩

/-- StepIssuesTheStatement: the host's turn is listed; the turns are used up and nothing runs. -/
theorem test_witness_StepIssuesTheStatement :
    HostMoves (hosted (inFlight State.reset 0x11) [.poll]) .poll [] [] ∧
    HostMoves { State.reset with script := [.rd 0x030 64, .poll] } (.rd 0x030 64) [.poll] [] := by
  decide

theorem test_witness_IdleEngineHoldsItsState :
    State.reset.busy = false ∧ State.reset.script = [] ∧ State.reset.turns = [] ∧
    { State.reset with turns := [.engine] }.turns = .engine :: [] ∧
    { State.reset with turns := [.host] }.turns = .host :: [] := by decide

/-- Every statement whose one hypothesis is that no hazard was recorded, or that with a legal capacity. -/
theorem test_witness_quiet :
    State.reset.inputHazard = false ∧ State.reset.cfg.Legal ∧ (small State.reset).cfg.Legal := by
  decide

/-- DistBCompletes: LEN at 0 and at the capacity; above it in A, then in B; a mismatch. -/
theorem test_witness_DistBCompletes :
    ((lens 0 0).la ≤ (lens 0 0).cfg.maxBytes ∧ (lens 0 0).lb = (lens 0 0).la) ∧
    ((lens 4096 4096).la ≤ (lens 4096 4096).cfg.maxBytes ∧
      (lens 4096 4096).lb = (lens 4096 4096).la) ∧
    (lens 4097 0).cfg.maxBytes < (lens 4097 0).la ∧
    ((lens 4096 4097).la ≤ (lens 4096 4097).cfg.maxBytes ∧
      (lens 4096 4097).cfg.maxBytes < (lens 4096 4097).lb) ∧
    ((lens 4096 4095).la ≤ (lens 4096 4095).cfg.maxBytes ∧
      (lens 4096 4095).lb ≤ (lens 4096 4095).cfg.maxBytes ∧
      (lens 4096 4095).la ≠ (lens 4096 4095).lb) := by decide

/-- DistQCompletes: the same at 512 words. -/
theorem test_witness_DistQCompletes :
    ((lens 512 512).la ≤ (lens 512 512).cfg.maxBytes / 8 ∧ (lens 512 512).lb = (lens 512 512).la) ∧
    (lens 513 0).cfg.maxBytes / 8 < (lens 513 0).la ∧
    ((lens 512 513).la ≤ (lens 512 513).cfg.maxBytes / 8 ∧
      (lens 512 513).cfg.maxBytes / 8 < (lens 512 513).lb) ∧
    ((lens 512 511).la ≤ (lens 512 511).cfg.maxBytes / 8 ∧
      (lens 512 511).lb ≤ (lens 512 511).cfg.maxBytes / 8 ∧
      (lens 512 511).la ≠ (lens 512 511).lb) := by decide

/-- DistB2QCompletes: the six clauses, at the capacity and at the lengths around a multiple of 8. -/
theorem test_witness_DistB2QCompletes :
    ((lens 4096 4096).la ≤ (lens 4096 4096).cfg.maxBytes ∧ (lens 4096 4096).la % 8 = 0 ∧
      (lens 4096 4096).lb = (lens 4096 4096).la) ∧
    (lens 4104 12).cfg.maxBytes < (lens 4104 12).la ∧
    ((lens 12 4097).la ≤ (lens 12 4097).cfg.maxBytes ∧
      (lens 12 4097).cfg.maxBytes < (lens 12 4097).lb) ∧
    ((lens 4095 12).la ≤ (lens 4095 12).cfg.maxBytes ∧
      (lens 4095 12).lb ≤ (lens 4095 12).cfg.maxBytes ∧ (lens 4095 12).la % 8 ≠ 0) ∧
    ((lens 4096 12).la ≤ (lens 4096 12).cfg.maxBytes ∧
      (lens 4096 12).lb ≤ (lens 4096 12).cfg.maxBytes ∧ (lens 4096 12).la % 8 = 0 ∧
      (lens 4096 12).lb % 8 ≠ 0) ∧
    ((lens 16 24).la ≤ (lens 16 24).cfg.maxBytes ∧ (lens 16 24).lb ≤ (lens 16 24).cfg.maxBytes ∧
      (lens 16 24).la % 8 = 0 ∧ (lens 16 24).lb % 8 = 0 ∧ (lens 16 24).la ≠ (lens 16 24).lb) := by
  decide

/-- ToWordsCompletes, ToWordsStoreFrame: the three clauses, W_RAM in canonical form. -/
theorem test_witness_ToWords :
    (counting 8).wf ∧ (lens 4096 0).inputHazard = false ∧
    ((lens 4096 0).la ≤ (lens 4096 0).cfg.maxBytes ∧ (lens 4096 0).la % 8 = 0) ∧
    (lens 4097 0).cfg.maxBytes < (lens 4097 0).la ∧
    ((lens 12 0).la ≤ (lens 12 0).cfg.maxBytes ∧ (lens 12 0).la % 8 ≠ 0) := by decide

/-- DistanceLaws: equal signatures, and complements, of one quadword. -/
theorem test_witness_DistanceLaws :
    (∀ j < 1 * Width.quad.bytes, (fun _ : Nat => 0x5A#8) j = (fun _ : Nat => 0x5A#8) j) ∧
    ∀ j < 1 * Width.quad.bytes, (fun _ : Nat => 0xA5#8) j = ~~~((fun _ : Nat => 0x5A#8) j) := by
  decide

/-- LanePipelineGivesTheDistance: one lane and the largest byte signature; 16 lanes, the last beat not
full. -/
theorem test_witness_LanePipeline :
    (Config.reference.Legal ∧ 1 ≤ 1 ∧ 4096 * Width.byte.bytes ≤ Config.reference.maxBytes ∧
      4096 ≤ 4096 * 1) ∧
    (1 ≤ 16 ∧ 511 * Width.quad.bytes ≤ Config.reference.maxBytes ∧ 511 ≤ 32 * 16) := by decide

theorem test_witness_FixedAgreesWithVariable :
    (v3 0 0).inputHazard = false ∧ (v3 0 0).cfg.Legal ∧ Written (v3 0 0).aram 64 ∧
      Written (v3 0 0).bram 64 := by decide +kernel

/-- ConversionRoundTrip: the whole of the smallest RAM, and a length that is no multiple of 8. -/
theorem test_witness_ConversionRoundTrip :
    (small (v3 0 0)).inputHazard = false ∧ (small (v3 0 0)).cfg.Legal ∧
    (64 ≤ (small (v3 0 0)).cfg.maxBytes ∧ Written (small (v3 0 0)).aram 64 ∧
      Written (small (v3 0 0)).bram 64 ∧ 64 % 8 = 0) ∧
    (63 ≤ (small (v3 0 0)).cfg.maxBytes ∧ Written (small (v3 0 0)).aram 63 ∧
      Written (small (v3 0 0)).bram 63 ∧ 63 % 8 ≠ 0) := by decide +kernel

/-- OnlyReadBytesMatter: machines that differ in RESULT, in W_RAM, past the bytes read and in the
registers the command does not read: for DIST.B, TOWORDS, DIST32B (its bytes), POPCNT8, and a command
that raises an error and so reads no byte. -/
theorem test_witness_OnlyReadBytesMatter :
    let s := { lens 8 8 with aram := counting 8, bram := filled 8 0, operand := 0x1FF }
    let s' := { lens 8 8 with
      aram := counting 9, bram := filled 10 0, wram := counting 1, result := 7, draws := 3
      operand := 0x2FF }
    (s.inputHazard = false ∧ s'.inputHazard = false ∧ s.wram.wf ∧ s'.wram.wf ∧
      s'.cfg.maxBytes = s.cfg.maxBytes) ∧
    (SameInputs s s' (.distB .k1) ∧ firstCause (errorCauses s (.distB .k1)) = none ∧
      SameWritten s.aram s'.aram (bytesReadA s (.distB .k1)) ∧
      SameWritten s.bram s'.bram (bytesReadB s (.distB .k1))) ∧
    (SameInputs s { s' with lenB := 5 } (.toWords .k1) ∧
      firstCause (errorCauses s (.toWords .k1)) = none ∧
      SameWritten s.aram s'.aram (bytesReadA s (.toWords .k1)) ∧
      SameWritten s.bram s'.bram (bytesReadB s (.toWords .k1))) ∧
    (SameInputs (v3 0 0) (v3 10 11) (.dist32B .full) ∧
      SameWritten (v3 0 0).aram (v3 10 11).aram (bytesReadA (v3 0 0) (.dist32B .full))) ∧
    (SameInputs s s' .popcnt8 ∧ s'.operand ≠ s.operand) ∧
    firstCause (errorCauses (lens 8 9) (.distB .k1)) ≠ none := by decide +kernel

/-- ResultWithinRange, ErrorsHaveNoOtherEffect: a command that succeeds and one that does not. -/
theorem test_witness_success_and_error :
    (after (inFlight (v3 3 3) 0x02)).map (fun t => t.err) = some .noError ∧
    (after (inFlight (v3 3 4) 0x02)).map (fun t => t.err) = some .lengthMismatch := by decide

/-- FirstErrorIsReported: two causes hold, the first is reported; and no cause. -/
theorem test_witness_FirstErrorIsReported :
    firstCause (errorCauses (lens 4104 12) (.distB2Q .k1)) = some (.capacity, .a) ∧
    firstCause (errorCauses (lens 10 11) (.distB2Q .k1)) = some (.invalidLength, .a) ∧
    firstCause (errorCauses (lens 16 16) (.distB2Q .k1)) = none := by decide

/-- CompletionFrame: a command that stores nothing. ToWordsStoreFrame: a byte past the words stored, and
one an error leaves. -/
theorem test_witness_frames :
    isToWords (.distB2Q .k1) = false ∧
    (∀ k < (lens 8 0).la / 8, ¬(8 * k ≤ 8 ∧ 8 < 8 * k + 8)) ∧
    (after (inFlight (lens 12 0) 0x07)).map (fun t => t.err) = some .invalidLength := by decide

theorem test_witness_CommandWriteAccepts : State.reset.busy = false := by decide

/-- CommandWriteWhileBusyDropped, in both policies; EveryCommandCompletes and ResetAbandonsTheCommand
share its first state. -/
theorem test_witness_CommandWriteWhileBusyDropped :
    (inFlight State.reset 0x11).busy = true ∧
    (inFlight State.reset 0x11).cfg.hazardPolicy = .goOn ∧
    (stopping (inFlight State.reset 0x11)).busy = true := by decide

theorem test_witness_RegisterWrites : (lens 4096 1).busy = false := by decide

/-- RamWriteReadsBack: the last word of the largest RAM, and of the smallest. -/
theorem test_witness_RamWriteReadsBack :
    ((v3 0 0).busy = false ∧ (v3 0 0).cfg.Legal ∧ 8 * 511 < (v3 0 0).cfg.maxBytes) ∧
    ((small (v3 0 0)).cfg.Legal ∧ 8 * 7 < (small (v3 0 0)).cfg.maxBytes) ∧
    (counting 8).wf := by decide

/-- ReadOnlyWritesIgnored: each register, and the first and last word of W_RAM. -/
theorem test_witness_ReadOnlyWritesIgnored :
    State.reset.cfg.Legal ∧ (0x3000 ≤ 0x3000 ∧ 0x3000 % 8 = 0) ∧
    (0x3000 ≤ 0x3FF8 ∧ 0x3FF8 < 0x3000 + State.reset.cfg.maxBytes ∧ 0x3FF8 % 8 = 0) := by decide

/-- BusErrorsHaveNoEffect: each kind of error, at the edges of the map, and locations just inside. -/
theorem test_witness_BusErrorsHaveNoEffect :
    target (lens 0 0).cfg 0x010 32 = none ∧ target (lens 0 0).cfg 0x004 64 = none ∧
    target (lens 0 0).cfg 0x038 64 = none ∧ target (lens 0 0).cfg 0x0FF8 64 = none ∧
    target (lens 0 0).cfg 0x4000 64 = none ∧
    target (small (lens 0 0)).cfg 0x1040 64 = none ∧
    target (small (lens 0 0)).cfg 0x1038 64 = some (.aRam 56) ∧
    target (lens 0 0).cfg 0x1FF8 64 = some (.aRam 4088) ∧
    target (lens 0 0).cfg 0x2000 64 = some (.bRam 0) ∧
    target (lens 0 0).cfg 0x3FF8 64 = some (.wRam 511) ∧
    target (lens 0 0).cfg 0x030 64 = some .result := by decide

/-- RegisterReads: a machine with every register in use. -/
theorem test_witness_RegisterReads :
    { lens 7 9 with result := 3, operand := 5, done := true }.busy = false ∧
    (lens 7 9).cfg.Legal := by decide

/-- RamReads: a word whose bytes are written, in each window. -/
theorem test_witness_RamReads :
    let s := { State.reset with aram := counting 8, bram := counting 8, wram := counting 8 }
    s.cfg.Legal ∧ 8 * 0 < s.cfg.maxBytes ∧ s.toWordsInFlight = false ∧
    (∀ t < 8, s.aram.lookup (8 * 0 + t) = some (BitVec.ofNat 8 (t + 1))) ∧
    (∀ t < 8, s.bram.lookup (8 * 0 + t) = some (BitVec.ofNat 8 (t + 1))) ∧
    (∀ t < 8, s.wram.lookup (8 * 0 + t) = some (BitVec.ofNat 8 (t + 1))) := by decide

theorem test_witness_PollReadsUntilIdle :
    State.reset.rst = false ∧ (inFlight State.reset 0x11).rst = false := by decide

/-- ReadsRepeat: locations whose answer is settled, a RAM word with its bytes written among them.
WritesAreIdempotent: a write of an input, while BUSY = 0 and while BUSY = 1. -/
theorem test_witness_reads_and_writes :
    (target (v3 0 0).cfg 0x1038 64 = some (.aRam 56) ∧ (v3 0 0).Settled (.aRam 56) ∧
      (v3 0 0).Settled .result ∧
      { State.reset with wram := counting 8 }.Settled (.wRam 0)) ∧
    (State.reset.aram.wf ∧ State.reset.bram.wf ∧
      target State.reset.cfg 0x1FF8 64 ≠ some .cmd ∧
      (after (hosted State.reset [.wr 0x1FF8 64 1])).isSome = true ∧
      (after (hosted (inFlight State.reset 0x02) [.wr 0x018 64 7])).isSome = true) := by decide

/-- InputHazard: each policy, the first and the last input; and a completion after it. -/
theorem test_witness_InputHazard :
    ((stopping (inFlight State.reset 0x02)).busy = true ∧
      target (stopping State.reset).cfg 0x018 64 = some .lenA ∧ Target.lenA.isInput = true ∧
      (stopping State.reset).cfg.hazardPolicy = .stop) ∧
    ((inFlight State.reset 0x02).busy = true ∧
      target State.reset.cfg 0x2FF8 64 = some (.bRam 4088) ∧ (Target.bRam 4088).isInput = true ∧
      State.reset.cfg.hazardPolicy = .goOn) ∧
    (let s := { inFlight State.reset 0x07 with inputHazard := true }
     let s' := { inFlight (v3 8 9) 0x07 with inputHazard := true }
     s.inputHazard = true ∧ s'.inputHazard = true ∧ s'.draws = s.draws ∧ s'.cmd = s.cmd ∧
       s'.cfg.maxBytes = s.cfg.maxBytes ∧ EngineMoves s [] ∧ EngineMoves s' [] ∧
       s'.lenA ≠ s.lenA) := by decide

/-- InputHazard: the same for a word that decodes to nothing. -/
theorem test_witness_InputHazard_illegal :
    EngineMoves { inFlight State.reset 0xE2 with inputHazard := true } [] ∧
    IllegalWord (inFlight State.reset 0xE2).cmd := ⟨by decide, .fullUnroll, by decide⟩

/-- BusyReadsSayNothing: a TOWORDS in flight, another command in flight, the last word of W_RAM. -/
theorem test_witness_BusyReadsSayNothing :
    ((inFlight State.reset 0x07).busy = true ∧ State.reset.cfg.Legal ∧
      8 * 511 < State.reset.cfg.maxBytes) ∧
    (∃ u, decodeWord (inFlight State.reset 0x07).cmd = .ok (.toWords u)) ∧
    ∀ u, decodeWord (inFlight State.reset 0x11).cmd ≠ .ok (.toWords u) :=
  ⟨by decide, ⟨.k1, by decide⟩, fun u => by cases u <;> decide⟩

/-- ResetTakesResetValues: `rst` asserted, driven low while it is low, and released; a transaction while it is asserted. -/
theorem test_witness_ResetTakesResetValues :
    (true = true ∨ State.reset.rst = true) ∧ State.reset.rst = false ∧
    (false = true ∨ { State.reset with rst := true }.rst = true) := by decide

theorem test_witness_ResetAbandonsTheCommand :
    (inFlight (v3 4 4) 0x02).busy = true := by decide

/-- The invariant holds with a command in flight, and after one. -/
theorem test_witness_invariant_in_flight : (inFlight (v3 4 4) 0x02).Inv where
  legal := by decide
  rams := by decide +kernel
  status := ⟨by decide, by decide, by decide, by decide⟩
  outcome := fun h => absurd h (by decide)

/-- StepKeepsTheInvariant, and the statements about one step: a step that answers a state. -/
theorem test_witness_step_next : (after (inFlight (v3 4 4) 0x02)).isSome = true := by decide

/-- EveryCommandCompletes: turns of the host are placed before the Engine's. -/
theorem test_witness_EveryCommandCompletes :
    { inFlight (v3 4 4) 0x02 with turns := [.host, .host] }.Inv ∧
    { inFlight (v3 4 4) 0x02 with turns := [.host, .host] }.busy = true ∧
    { inFlight (v3 4 4) 0x02 with turns := [.host, .host] }.cfg.hazardPolicy = .goOn :=
  ⟨⟨by decide, by decide +kernel, ⟨by decide, by decide, by decide, by decide⟩,
    fun h => absurd h (by decide)⟩, by decide, by decide⟩

/-- OnlyTheseStops: a fault, a refusal, and neither. -/
theorem test_witness_OnlyTheseStops :
    step (hosted (stopping (inFlight State.reset 0x02)) [.wr 0x018 64 7])
      = .fault .inputWrittenWhileBusy ∧
    step (hosted { State.reset with rst := true } [.poll]) = .refused .transactionInReset ∧
    (State.reset.cfg.hazardPolicy = .goOn ∧ State.reset.rst = false) :=
  ⟨rfl, rfl, by decide⟩

/-- BusyAndDoneChangeOnly, OverrunChangesOnly, RegistersChangeOnly: an accept sets BUSY and clears DONE,
OVERRUN and ERR. -/
theorem test_witness_accept_changes :
    (after (hosted { State.reset with done := true, overrun := true, err := .capacity }
      [.wr 0x008 64 0x11])).map (fun t => (t.busy, t.done, t.overrun, t.err, t.cmd))
      = some (true, false, false, .noError, 0x11) := by decide

/-- BusyAndDoneChangeOnly, RegistersChangeOnly: a completion clears BUSY, sets DONE and writes RESULT. -/
theorem test_witness_completion_changes :
    (after (inFlight { State.reset with operand := 7 } 0x11)).map
      (fun t => (t.busy, t.done, t.result)) = some (false, true, 3) := by decide

/-- BusyAndDoneChangeOnly, OverrunChangesOnly: reset clears BUSY, DONE and OVERRUN. -/
theorem test_witness_reset_changes :
    (after (hosted { inFlight State.reset 0x11 with overrun := true } [.rst true])).map
      (fun t => (t.busy, t.overrun, t.cmd)) = some (false, false, 0) ∧
    (after (hosted { State.reset with done := true } [.rst true])).map (fun t => t.done)
      = some false := by decide

/-- OverrunChangesOnly: a dropped write of CMD sets OVERRUN. -/
theorem test_witness_overrun_set :
    (after (hosted (inFlight State.reset 0x11) [.wr 0x008 64 0x01])).map (fun t => t.overrun)
      = some true := by decide

/-- StorageChangesOnly: the Engine moves, and W_RAM changes. -/
theorem test_witness_StorageChangesOnly :
    EngineMoves (inFlight { lens 8 0 with aram := counting 8 } 0x07) [] ∧
    (after (inFlight { lens 8 0 with aram := counting 8 } 0x07)).map (fun t => t.wram)
      = some (counting 8) := by decide

/-- RegistersChangeOnly: LEN_A, LEN_B and OPERAND change. -/
theorem test_witness_RegistersChangeOnly :
    (after (hosted State.reset [.wr 0x018 64 1])).map (fun t => t.lenA) = some 1 ∧
    (after (hosted State.reset [.wr 0x020 64 1])).map (fun t => t.lenB) = some 1 ∧
    (after (hosted State.reset [.wr 0x028 64 1])).map (fun t => t.operand) = some 1 := by decide

/-- SignaturesChangeOnly: the last byte of a word of A_RAM and of B_RAM changes. -/
theorem test_witness_SignaturesChangeOnly :
    State.reset.aram.wf ∧ State.reset.bram.wf ∧ State.reset.aram.lookup 4095 = none ∧
    (after (hosted State.reset [.wr 0x1FF8 64 1])).map (fun t => t.aram.lookup 4095)
      = some (some 0) ∧
    (after (hosted State.reset [.wr 0x2FF8 64 1])).map (fun t => t.bram.lookup 4095)
      = some (some 0) := by decide

/-- OutcomeSameForEveryPlacement: a DIST.B with its bytes written, and statements that obey the hazard
rule. -/
theorem test_witness_OutcomeSameForEveryPlacement :
    let s := { inFlight (v3 5 5) 0x02 with script := [.poll, .wr 0x008 64 1, .rd 0x030 64] }
    (s.busy = true ∧ s.inputHazard = false ∧ s.rst = false ∧
      ∀ h ∈ s.script, h.keepsInputs s.cfg = true) ∧
    ∀ i, decodeWord s.cmd = .ok i → firstCause (errorCauses s i) = none →
      Written s.aram (bytesReadA s i) ∧ Written s.bram (bytesReadB s i) := by
  intro s
  refine ⟨by decide, fun i hi _ => ?_⟩
  have hd : decodeWord s.cmd = .ok (.distB .k1) := by decide
  obtain rfl : Instr.distB .k1 = i := Except.ok.inj (hd.symm.trans hi)
  exact ⟨by decide +kernel, by decide +kernel⟩

end Sys2Proof.Tests
end

section
/-!
SUPPORT. The verdict of a command fits the invariant: a success holds a count that MAX_BYTES bounds
and writes inside W_RAM, an error holds all ones (60_exceptions R211, R212, 41_distance_variable R148).
-/

namespace Sys2Proof.Machine

/-- What the verdict of a legal command keeps to in a machine of `maxBytes` bytes a RAM: the claims of
`State.OutcomeSound`, and that every W_RAM word it writes lies inside W_RAM. -/
structure Verdict.Sound (maxBytes : Nat) (v : Verdict) : Prop where
  count : v.err = .noError → v.res.toNat ≤ 8 * maxBytes
  allOnes : v.err ≠ .noError → v.res = errorResult
  operandB : v.eopnd = .b → v.err = .capacity ∨ v.err = .invalidLength
  notIllegal : v.err ≠ .illegalCommand
  inWram : ∀ p ∈ v.wr, 8 * p.1 + 8 ≤ maxBytes

theorem succeed_sound {maxBytes n : Nat} {wr : List (Nat × Word)} (hn : n ≤ 8 * maxBytes)
    (hwr : ∀ p ∈ wr, 8 * p.1 + 8 ≤ maxBytes) : (succeed n wr).Sound maxBytes where
  count _ := by
    have hmod : (BitVec.ofNat 64 n).toNat ≤ n := by
      rw [BitVec.toNat_ofNat]; exact Nat.mod_le _ _
    exact hmod.trans hn
  allOnes h := absurd rfl h
  operandB h := nomatch h
  notIllegal h := nomatch h
  inWram := hwr

/-- A success that writes no W_RAM word. -/
theorem succeed_nil_sound {maxBytes n : Nat} (hn : n ≤ 8 * maxBytes) :
    (succeed n []).Sound maxBytes :=
  succeed_sound hn (by simp)

theorem raise_sound (maxBytes : Nat) {e : ErrCode} {opnd : Side} (hno : e ≠ .noError)
    (hill : e ≠ .illegalCommand) (hb : opnd = .b → e = .capacity ∨ e = .invalidLength) :
    (raise e opnd).Sound maxBytes where
  count h := absurd h hno
  allOnes _ := rfl
  operandB := hb
  notIllegal := hill
  inWram := by simp [raise]

theorem raise_capacity_sound (maxBytes : Nat) (opnd : Side) :
    (raise .capacity opnd).Sound maxBytes :=
  raise_sound _ (by decide) (by decide) fun _ => .inl rfl

theorem raise_invalidLength_sound (maxBytes : Nat) (opnd : Side) :
    (raise .invalidLength opnd).Sound maxBytes :=
  raise_sound _ (by decide) (by decide) fun _ => .inr rfl

theorem raise_lengthMismatch_sound (maxBytes : Nat) :
    (raise .lengthMismatch .a).Sound maxBytes :=
  raise_sound _ (by decide) (by decide) (by decide)

/-- A signature within the capacity has at most 8 MAX_BYTES bits (41_distance_variable R145, R148). -/
theorem distance_le_of_le_capacity (w : Width) (s : State) (a b : Nat → Byte) (n : Nat)
    (hn : n ≤ capacity w s) : distance w a b n ≤ 8 * s.cfg.maxBytes := by
  have hle := distance_le w a b n
  cases w <;> simp only [capacity, Width.bytes, Width.bits] at hn hle <;> omega

theorem distVerdict_sound (w : Width) (s : State) : (distVerdict w s).Sound s.cfg.maxBytes := by
  obtain ⟨-, hv⟩ | ⟨-, -, hv⟩ | ⟨-, -, -, hv⟩ | ⟨hla, -, hv⟩ := distVerdict_cases w s <;> rw [hv]
  · exact raise_capacity_sound _ _
  · exact raise_capacity_sound _ _
  · exact raise_lengthMismatch_sound _
  · exact succeed_nil_sound (distance_le_of_le_capacity w s _ _ _ hla)

theorem bridgeVerdict_sound (s : State) : (bridgeVerdict s).Sound s.cfg.maxBytes := by
  obtain ⟨-, hv⟩ | ⟨-, -, hv⟩ | ⟨-, -, -, hv⟩ | ⟨-, -, -, -, hv⟩ | ⟨-, -, -, -, -, hv⟩ |
    ⟨hla, -, -, hv⟩ := bridgeVerdict_cases s <;> rw [hv]
  · exact raise_capacity_sound _ _
  · exact raise_capacity_sound _ _
  · exact raise_invalidLength_sound _ _
  · exact raise_invalidLength_sound _ _
  · exact raise_lengthMismatch_sound _
  · exact succeed_nil_sound
      (distance_le_of_le_capacity .quad s _ _ _ (Nat.div_le_div_right hla))

theorem convertVerdict_sound (s : State) : (convertVerdict s).Sound s.cfg.maxBytes := by
  obtain ⟨-, hv⟩ | ⟨-, -, hv⟩ | ⟨hla, -, hv⟩ := convertVerdict_cases s <;> rw [hv]
  · exact raise_capacity_sound _ _
  · exact raise_invalidLength_sound _ _
  · refine succeed_sound (by omega) fun p hp => ?_
    obtain ⟨hk, -⟩ := mem_wordWrites _ _ p hp
    omega

/-- A fixed-length count is within the least capacity, 64 bytes (00_scope R8, 42_distance_fixed R170). -/
theorem verdictOf_sound (s : State) (i : Instr) (hc : s.cfg.Legal) :
    (verdictOf s i).Sound s.cfg.maxBytes := by
  obtain ⟨-, hmin, -⟩ := hc
  have hfixed : ∀ {n}, n ≤ 512 → (succeed n []).Sound s.cfg.maxBytes :=
    fun hn => succeed_nil_sound (by omega)
  cases i with
  | popcnt8 => exact hfixed ((popcount_le 8 _).trans (by decide))
  | popcnt64 => exact hfixed ((popcount_le 64 _).trans (by decide))
  | distB u => exact distVerdict_sound .byte s
  | distQ u => exact distVerdict_sound .quad s
  | dist32B u => exact hfixed ((distance_le .byte _ _ 32).trans (by decide))
  | dist4Q u => exact hfixed ((distance_le .quad _ _ 4).trans (by decide))
  | dist8Q u => exact hfixed ((distance_le .quad _ _ 8).trans (by decide))
  | distB2Q u => exact bridgeVerdict_sound s
  | toWords u => exact convertVerdict_sound s

end Sys2Proof.Machine
end

section
/-!
SUPPORT. Each named operation on the state keeps the invariant: one lemma per operation, in the order
reset, host side, completion, host write.
-/

namespace Sys2Proof.Machine

/-- Reset establishes the invariant at either level of `rst` (70_reset_and_hazards R240). -/
theorem State.inv_applyReset (s : State) (level : Bool) (hc : s.cfg.Legal) :
    ({ s.applyReset with rst := level } : State).Inv where
  legal := hc
  rams := by simp [State.RamsSound]
  status :=
    { notBoth := by simp
      inFlight := by simp
      unused := by simp
      inReset := fun _ => rfl }
  outcome := by simp

/-- The invariant says nothing of the host's side, the turns and the draws. -/
theorem State.Inv.hostSide {s : State} (h : s.Inv) (script : List HostStmt) (turns : List Agent)
    (replies : List Reply) (draws : Nat) :
    ({ s with script := script, turns := turns, replies := replies, draws := draws } : State).Inv where
  legal := h.legal
  rams := h.rams
  status :=
    { notBoth := h.status.notBoth
      inFlight := h.status.inFlight
      unused := h.status.unused
      inReset := fun hr => congrArg (fun t : State =>
        { t with script := script, turns := turns, replies := replies, draws := draws })
        (h.status.inReset hr) }
  outcome hd hz :=
    have ho := h.outcome hd hz
    { count := ho.count, allOnes := ho.allOnes, operandB := ho.operandB, illegal := ho.illegal }

theorem State.Inv.reply {s : State} (h : s.Inv) (r : Reply) : (s.reply r).Inv :=
  h.hostSide s.script s.turns (r :: s.replies) s.draws

/-- `rst` is not asserted while a command is in flight: reset abandons it (70_reset_and_hazards R241). -/
theorem State.StatusSound.rst_of_busy {s : State} (h : s.StatusSound) (hb : s.busy = true) :
    s.rst = false := by
  by_contra hr
  have hreset : s.applyReset.busy = s.busy :=
    congrArg State.busy (h.inReset (Bool.eq_true_of_not_eq_false hr))
  simp [hb] at hreset

/-- With BUSY = 0 and DONE = 1 and `rst` released, STATUS is sound whatever else it shows. -/
theorem State.StatusSound.of_done {s : State} (hb : s.busy = false) (hd : s.done = true)
    (hr : s.rst = false) : s.StatusSound where
  notBoth := by simp [hb]
  inFlight := by simp [hb]
  unused := by simp [hd]
  inReset := by simp [hr]

/-- A completion with values that fit together keeps the invariant (10_state R40). -/
theorem State.Inv.complete {s : State} {v : Verdict} (h : s.Inv) (hb : s.busy = true)
    (hwr : ∀ p ∈ v.wr, 8 * p.1 + 8 ≤ s.cfg.maxBytes) (ho : (s.complete v).OutcomeSound) :
    (s.complete v).Inv where
  legal := h.legal
  rams := by
    obtain ⟨⟨haw, hbw, hww⟩, hab, hbb, hwb⟩ := h.rams
    exact ⟨⟨haw, hbw, Memory.writeWords_wf _ _ hww⟩, hab, hbb,
      Memory.writeWords_below _ _ _ hwb hwr⟩
  status := .of_done rfl rfl (h.status.rst_of_busy hb)
  outcome _ _ := ho

/-- The completion after an input hazard keeps the invariant: the hazard stays recorded, and a clobbered
W_RAM holds MAX_BYTES bytes (70_reset_and_hazards R245). -/
theorem State.Inv.completeUnspecified {s : State} (h : s.Inv) (hb : s.busy = true)
    (hz : s.inputHazard = true) (clobbers : Bool) : (s.completeUnspecified clobbers).Inv where
  legal := h.legal
  rams := by
    obtain ⟨⟨haw, hbw, hww⟩, hab, hbb, hwb⟩ := h.rams
    cases clobbers with
    | false => exact ⟨⟨haw, hbw, hww⟩, hab, hbb, hwb⟩
    | true => exact ⟨⟨haw, hbw, Memory.ofBytes_wf _ _⟩, hab, hbb, Memory.ofBytes_below _ _⟩
  status := .of_done rfl rfl (h.status.rst_of_busy hb)
  outcome _ hq := by simp [hz] at hq

/-- A legal command's verdict fits CMD: ILLEGAL_COMMAND is not among its errors. -/
theorem outcomeSound_complete_verdictOf {s : State} {i : Instr} (hc : s.cfg.Legal)
    (hi : decodeWord s.cmd = .ok i) : (s.complete (verdictOf s i)).OutcomeSound :=
  have hv := verdictOf_sound s i hc
  { count := hv.count
    allOnes := hv.allOnes
    operandB := hv.operandB
    illegal := iff_of_false hv.notIllegal (by simp [IllegalWord, hi]) }

/-- An illegal word's completion reports ILLEGAL_COMMAND (60_exceptions R215). -/
theorem outcomeSound_complete_illegalCommand {s : State} (hill : IllegalWord s.cmd) :
    (s.complete (raise .illegalCommand .a)).OutcomeSound where
  count h := nomatch h
  allOnes _ := rfl
  operandB h := nomatch h
  illegal := iff_of_true rfl hill

/-- The Engine's completion step keeps the invariant (10_state R40). -/
theorem State.Inv.completion {s t : State} (h : s.Inv) (hb : s.busy = true)
    (hst : completion s = .next t) : t.Inv := by
  obtain ⟨clobbers, v, -, hfin, hv⟩ := completion_cases s
  rw [hfin] at hst
  cases hz : s.inputHazard with
  | true =>
    obtain rfl : s.completeUnspecified clobbers = t := by
      simpa [finish_of_hazard _ _ _ hz] using hst
    exact h.completeUnspecified hb hz clobbers
  | false =>
    obtain rfl : s.complete v = t := by simpa [finish_of_quiet _ _ _ hz] using hst
    obtain ⟨i, hi, -, rfl⟩ | ⟨hill, -, rfl⟩ := hv
    · exact h.complete hb (verdictOf_sound s i h.legal).inWram
        (outcomeSound_complete_verdictOf h.legal hi)
    · exact h.complete hb (by simp [raise]) (outcomeSound_complete_illegalCommand hill)

/-- Accept keeps the invariant: it clears all that STATUS showed (10_state R38). -/
theorem State.Inv.accept {s : State} (h : s.Inv) (hr : s.rst = false) (v : Word) :
    (s.accept v).Inv where
  legal := h.legal
  rams := h.rams
  status :=
    { notBoth := by simp
      inFlight := by simp
      unused := by simp
      inReset := by simp [hr] }
  outcome := by simp

/-- A CMD write dropped while BUSY keeps the invariant (10_state R39). -/
theorem State.Inv.setOverrun {s : State} (h : s.Inv) (hb : s.busy = true) :
    ({ s with overrun := true } : State).Inv where
  legal := h.legal
  rams := h.rams
  status :=
    { notBoth := h.status.notBoth
      inFlight := h.status.inFlight
      unused := by simp [hb]
      inReset := by simp [h.status.rst_of_busy hb] }
  outcome hd := absurd ⟨hb, hd⟩ h.status.notBoth

/-- Recording an input hazard keeps the invariant (70_reset_and_hazards R245). -/
theorem State.Inv.recordHazard {s : State} (h : s.Inv) (hb : s.busy = true) :
    ({ s with inputHazard := true } : State).Inv where
  legal := h.legal
  rams := h.rams
  status :=
    { notBoth := h.status.notBoth
      inFlight := h.status.inFlight
      unused := by simp [hb]
      inReset := by simp [h.status.rst_of_busy hb] }
  outcome := by simp

/-- New values of the input registers and of the signatures keep the invariant while `rst` is released:
STATUS and the last outcome do not speak of them. -/
theorem State.Inv.setInputs {s : State} (h : s.Inv) (hr : s.rst = false) (lenA lenB : BitVec 32)
    (operand : Word) {aram bram : Memory} (ha : aram.wf ∧ aram.below s.cfg.maxBytes)
    (hb : bram.wf ∧ bram.below s.cfg.maxBytes) :
    ({ s with lenA := lenA, lenB := lenB, operand := operand, aram := aram, bram := bram }
      : State).Inv where
  legal := h.legal
  rams := by
    obtain ⟨⟨-, -, hww⟩, -, -, hwb⟩ := h.rams
    obtain ⟨haw, hab⟩ := ha
    obtain ⟨hbw, hbb⟩ := hb
    exact ⟨⟨haw, hbw, hww⟩, hab, hbb, hwb⟩
  status :=
    { notBoth := h.status.notBoth
      inFlight := h.status.inFlight
      unused := h.status.unused
      inReset := by simp [hr] }
  outcome hd hz :=
    have ho := h.outcome hd hz
    { count := ho.count, allOnes := ho.allOnes, operandB := ho.operandB, illegal := ho.illegal }

/-- A word written inside a RAM leaves it canonical and inside its bounds. -/
theorem Memory.writeBytes_sound {m : Memory} {cap : Nat} (h : m.wf ∧ m.below cap) (j : Nat) (v : Word)
    (hj : j + 8 ≤ cap) : (m.writeBytes j 8 v).wf ∧ (m.writeBytes j 8 v).below cap :=
  ⟨Memory.writeBytes_wf _ _ _ _ h.1, Memory.writeBytes_below _ _ _ _ _ h.2 hj⟩

/-- A legal write keeps the invariant while `rst` is released (20_memory R63). -/
theorem State.Inv.writeTarget {s : State} (h : s.Inv) (hr : s.rst = false) (v : Word)
    {off bits : Nat} {T : Target} (hT : target s.cfg off bits = some T) :
    (s.writeTarget v T).Inv := by
  obtain ⟨⟨haw, hbw, -⟩, ha, hb, -⟩ := h.rams
  cases T with
  | params | status | result | wRam k => exact h
  | cmd =>
    cases hbusy : s.busy with
    | true => simpa [State.writeTarget, hbusy] using h.setOverrun hbusy
    | false => simpa [State.writeTarget, hbusy] using h.accept hr v
  | lenA => exact h.setInputs hr (v.setWidth 32) s.lenB s.operand ⟨haw, ha⟩ ⟨hbw, hb⟩
  | lenB => exact h.setInputs hr s.lenA (v.setWidth 32) s.operand ⟨haw, ha⟩ ⟨hbw, hb⟩
  | operand => exact h.setInputs hr s.lenA s.lenB v ⟨haw, ha⟩ ⟨hbw, hb⟩
  | aRam j =>
    have hj := target_ram_bound s.cfg off bits j h.legal (.inl hT)
    exact h.setInputs hr s.lenA s.lenB s.operand
      (Memory.writeBytes_sound ⟨haw, ha⟩ j v hj) ⟨hbw, hb⟩
  | bRam j =>
    have hj := target_ram_bound s.cfg off bits j h.legal (.inr hT)
    exact h.setInputs hr s.lenA s.lenB s.operand
      ⟨haw, ha⟩ (Memory.writeBytes_sound ⟨hbw, hb⟩ j v hj)

/-- A write of an input leaves BUSY alone; only a write of CMD sets it (10_state R25). -/
theorem writeTarget_busy_of_isInput (s : State) (v : Word) {T : Target} (hT : T.isInput = true) :
    (s.writeTarget v T).busy = s.busy := by
  cases T with
  | cmd => simp [Target.isInput] at hT
  | _ => rfl

/-- A host write that answers keeps the invariant while `rst` is released (20_memory R63, 60_exceptions
R219, 70_reset_and_hazards R245). -/
theorem State.Inv.hostWrite {s t : State} (h : s.Inv) (hr : s.rst = false) {off bits : Nat} {v : Word}
    (hst : hostWrite off bits v s = .next t) : t.Inv := by
  obtain ⟨-, hw⟩ | ⟨T, -, -, -, -, hw⟩ | ⟨T, hT, hb, hin, -, hw⟩ | ⟨T, hT, -, hw⟩ :=
    hostWrite_cases off bits v s <;> rw [hw] at hst <;> cases hst
  · exact h.reply _
  · exact ((h.writeTarget hr v hT).recordHazard
      ((writeTarget_busy_of_isInput s v hin).trans hb)).reply _
  · exact (h.writeTarget hr v hT).reply _

/-- Driving `rst` keeps the invariant (70_reset_and_hazards R240). -/
theorem State.Inv.driveRst {s : State} (h : s.Inv) (level : Bool) : (s.driveRst level).Inv := by
  unfold State.driveRst
  split
  · exact s.inv_applyReset level h.legal
  · exact h

/-- A host statement that answers keeps the invariant (20_memory R82). -/
theorem State.Inv.hostStmt {s t : State} (h : s.Inv) {stmt : HostStmt}
    (hst : hostStmt stmt s = .next t) : t.Inv := by
  obtain ⟨level, -, he⟩ | ⟨-, he, -⟩ | ⟨hr, off, bits, v, -, he⟩ | ⟨-, x, e, d, script, -, he⟩ :=
    hostStmt_cases stmt s <;> rw [he] at hst
  · cases hst
    exact h.driveRst level
  · cases hst
  · exact h.hostWrite hr hst
  · cases hst
    exact h.hostSide script s.turns (.read x e :: s.replies) d

/-- A step that answers keeps the invariant: it is the Engine's completion, a host statement, or a move
with nothing to do. -/
theorem State.Inv.step {s t : State} (h : s.Inv) (hst : step s = .next t) : t.Inv := by
  obtain ⟨rest, ⟨hb, -⟩, he⟩ | ⟨stmt, after, rest, -, he⟩ | ⟨rest, he⟩ := step_cases s <;>
    rw [he] at hst
  · exact (h.hostSide s.script rest s.replies s.draws).completion hb hst
  · exact (h.hostSide after rest s.replies s.draws).hostStmt hst
  · cases hst
    exact h.hostSide s.script rest s.replies s.draws

end Sys2Proof.Machine
end

section
/-!
The invariant of the machine: it holds after reset, and every step keeps it.
-/

namespace Sys2Proof.Machine

theorem State.inv_resetOf (c : Config) (hc : c.Legal) : (State.resetOf c).Inv :=
  (State.resetOf c).inv_applyReset false hc

/-- Settles O50: the state after reset is what reset makes of itself. -/
theorem resetMeetsTheInvariant : Obligations.ResetMeetsTheInvariant :=
  ⟨State.inv_resetOf .reference (by decide), State.inv_resetOf⟩

/-- Settles O51, move by move of the step. -/
theorem stepKeepsTheInvariant : Obligations.StepKeepsTheInvariant :=
  fun _ _ h hst => h.step hst

end Sys2Proof.Machine
end

section
/-!
SUPPORT. What every completion leaves alone (10_state R40), and the frames of the commands.
-/

namespace Sys2Proof.Machine

/-- A completion step answers, with either policy: it ends the command, keeps what CompletionKeeps
lists, and writes W_RAM only for TOWORDS (10_state R40, 70_reset_and_hazards R245). -/
theorem finish_answers (c : Bool) (v : Verdict) (s : State) :
    Answers (finish c v s) fun t => CompletionKeeps s t ∧ t.busy = false ∧ t.done = true ∧
      (c = false → v.wr = [] → t.wram = s.wram) := by
  cases hz : s.inputHazard with
  | false =>
    refine ⟨_, finish_of_quiet c v s hz, complete_keeps s v, rfl, rfl, fun _ hv => ?_⟩
    simp [hv, Memory.writeWords]
  | true =>
    refine ⟨_, finish_of_hazard c v s hz, completeUnspecified_keeps s c, rfl, rfl, fun hc _ => ?_⟩
    simp [hc]

theorem completion_of_decode {s : State} {i : Instr} (hi : decodeWord s.cmd = .ok i) :
    completion s = exec i s := by
  simp [completion, hi]

theorem completion_of_illegal {s : State} {r : Reject} (hr : decodeWord s.cmd = .error r) :
    completion s = finish false (raise .illegalCommand .a) s := by
  simp [completion, hr]

/-- The frame of a command, W_RAM as a whole. -/
theorem exec_answers (i : Instr) (s : State) :
    Answers (exec i s) fun t => CompletionKeeps s t ∧ t.busy = false ∧ t.done = true ∧
      (isToWords i = false → t.wram = s.wram) := by
  obtain ⟨t, hfin, hkeeps, hb, hd, hw⟩ := finish_answers (isToWords i) (verdictOf s i) s
  exact ⟨t, (exec_eq_finish i s).trans hfin, hkeeps, hb, hd, fun hi => hw hi (verdictOf_wr s i hi)⟩

/-- The frame of the Engine's completion step, of a command or of an illegal word (60_exceptions R215). -/
theorem completion_answers (s : State) :
    Answers (completion s) fun t => CompletionKeeps s t ∧ t.busy = false ∧ t.done = true ∧
      (t.wram ≠ s.wram → ∃ u, decodeWord s.cmd = .ok (.toWords u)) := by
  cases hdec : decodeWord s.cmd with
  | error r =>
    obtain ⟨t, hfin, hkeeps, hb, hd, hw⟩ := finish_answers false (raise .illegalCommand .a) s
    exact ⟨t, (completion_of_illegal hdec).trans hfin, hkeeps, hb, hd,
      fun hne => absurd (hw rfl rfl) hne⟩
  | ok i =>
    obtain ⟨t, hex, hkeeps, hb, hd, hw⟩ := exec_answers i s
    refine ⟨t, (completion_of_decode hdec).trans hex, hkeeps, hb, hd, fun hne => ?_⟩
    cases i with
    | toWords u => exact ⟨u, rfl⟩
    | _ => exact absurd (hw rfl) hne

/-- Settles O32, for a quiet completion and after an input hazard alike. -/
theorem completionFrame : Obligations.CompletionFrame := by
  intro i s
  obtain ⟨t, hex, hkeeps, hb, hd, hw⟩ := exec_answers i s
  exact ⟨t, hex, hkeeps, hb, hd, fun hi j => by rw [hw hi]⟩

/-- Settles O33: the conversion stores LEN_A/8 words, and an error stores none. -/
theorem toWordsStoreFrame : Obligations.ToWordsStoreFrame := by
  intro u s hz hwf
  refine ⟨_, exec_of_quiet (.toWords u) s hz, fun j hj => ?_⟩
  obtain ⟨-, hv⟩ | ⟨-, -, hv⟩ | ⟨-, -, hv⟩ := convertVerdict_cases s <;>
    simp only [State.complete_err, State.complete_wram, verdictOf, hv] at hj ⊢
  · rfl
  · rfl
  · have hout : ¬ j < 8 * (s.la / 8) := fun hlt => hj rfl (j / 8) (by omega) (by omega)
    exact (Memory.lookup_wordWrites _ _ _ _ hwf).trans (if_neg hout)

end Sys2Proof.Machine
end

section
/-!
SUPPORT. The step of the agent that has the move (20_memory R73).
-/

namespace Sys2Proof.Machine

theorem step_of_engineMoves {s : State} {rest : List Agent} (h : EngineMoves s rest) :
    step s = completion { s with turns := rest } := by
  obtain ⟨hb, ht | ⟨ht, rfl⟩⟩ := h
  · simp [step, nextTurn, engineTurn, ht, hb]
  · have hs : ({ s with turns := [] } : State) = s := by rw [← ht]
    rw [hs]
    simp [step, nextTurn, engineTurn, ht, hb]

theorem step_of_hostMoves {s : State} {h : HostStmt} {after : List HostStmt} {rest : List Agent}
    (hm : HostMoves s h after rest) :
    step s = hostStmt h { s with turns := rest, script := after } := by
  obtain ⟨hs, ht | ⟨ht, rfl, hb⟩⟩ := hm
  · simp [step, nextTurn, hostTurn, ht, hs]
  · simp [step, nextTurn, hostTurn, ht, hs, hb]

/-- Settles O6: the Engine's step is the completion, and CMD decodes to the command. -/
theorem stepRunsTheCommand : Obligations.StepRunsTheCommand := by
  intro s rest i hm hi
  exact (step_of_engineMoves hm).trans (completion_of_decode hi)

end Sys2Proof.Machine
end

section
/-!
SUPPORT. The registers at the port: their offsets (20_memory R61), what a read of one returns (R62), and
what a write of one does (R63).
-/

namespace Sys2Proof.Machine

@[simp] theorem target_params (c : Config) : target c 0x000 64 = some .params := rfl
@[simp] theorem target_cmd (c : Config) : target c 0x008 64 = some .cmd := rfl
@[simp] theorem target_status (c : Config) : target c 0x010 64 = some .status := rfl
@[simp] theorem target_lenA (c : Config) : target c 0x018 64 = some .lenA := rfl
@[simp] theorem target_lenB (c : Config) : target c 0x020 64 = some .lenB := rfl
@[simp] theorem target_operand (c : Config) : target c 0x028 64 = some .operand := rfl
@[simp] theorem target_result (c : Config) : target c 0x030 64 = some .result := rfl

/-- A legal read answers the location's data (20_memory R62). -/
theorem hostRead_replies_of_target {s : State} {off bits : Nat} {T : Target}
    (hT : target s.cfg off bits = some T) :
    (hostRead off bits s).replies = .read (s.readTarget T) false :: s.replies := by
  simp [hostRead, hT]

/-- A legal write that is no input hazard takes effect (20_memory R63). -/
theorem hostWrite_of_target {s : State} {off bits : Nat} {T : Target}
    (hT : target s.cfg off bits = some T) (hquiet : s.busy = false ∨ T.isInput = false) (v : Word) :
    hostWrite off bits v s = .next ((s.writeTarget v T).reply (.write false)) := by
  simp only [hostWrite, hT]
  exact if_neg (by rcases hquiet with h | h <;> simp [h])

/-- `x` above `y` in a word. -/
theorem toNat_append_eq_add {m n : Nat} (x : BitVec m) (y : BitVec n) :
    (x ++ y).toNat = 2 ^ n * x.toNat + y.toNat := by
  rw [BitVec.toNat_append, ← Nat.shiftLeft_add_eq_or_of_lt y.isLt, Nat.shiftLeft_eq, mul_comm]

/-- STATUS as a number: BUSY bit 0, DONE bit 1, OVERRUN bit 2, ERR bits 7:4, EOPND bit 8 (10_state R24). -/
theorem statusWord_toNat (s : State) :
    s.statusWord.toNat = s.busy.toNat + 2 * s.done.toNat + 4 * s.overrun.toNat +
      16 * (errCodeBits s.err).toNat + 256 * (sideBit s.eopnd).toNat := by
  simp only [State.statusWord, toNat_append_eq_add, BitVec.toNat_ofBool, BitVec.toNat_ofNat]
  omega

theorem paramsWord_toNat (s : State) (hc : s.cfg.Legal) : s.paramsWord.toNat = s.cfg.maxBytes := by
  obtain ⟨-, -, hmax⟩ := hc
  simp only [State.paramsWord, BitVec.toNat_setWidth, BitVec.toNat_ofNat]
  omega

theorem lenWord_toNat (n : BitVec 32) : (lenWord n).toNat = n.toNat := by
  simp only [lenWord, BitVec.toNat_setWidth]
  omega

/-- Settles O40, register by register. -/
theorem registerReads : Obligations.RegisterReads := by
  intro s hc
  refine ⟨⟨s.paramsWord, lenWord s.lenA, lenWord s.lenB, s.statusWord,
    hostRead_replies_of_target (target_params _), paramsWord_toNat s hc,
    hostRead_replies_of_target (target_lenA _), lenWord_toNat _,
    hostRead_replies_of_target (target_lenB _), lenWord_toNat _,
    hostRead_replies_of_target (target_status _), ?_⟩,
    hostRead_replies_of_target (target_cmd _), hostRead_replies_of_target (target_operand _),
    fun hb => ?_⟩
  · rw [statusWord_toNat]
    cases s.err <;> cases s.eopnd <;> rfl
  · rw [hostRead_replies_of_target (target_result _)]
    simp [State.readTarget, hb]

/-- A write of CMD while BUSY = 0 (10_state R38). -/
theorem hostWrite_cmd_of_idle {s : State} (hb : s.busy = false) (v : Word) :
    hostWrite 0x008 64 v s = .next ((s.accept v).reply (.write false)) := by
  rw [hostWrite_of_target (target_cmd _) (.inl hb)]
  simp [State.writeTarget, hb]

/-- Settles O34: the write is the accept, and the accept's fields are as the statement lists them. -/
theorem commandWriteAccepts : Obligations.CommandWriteAccepts := by
  intro s v hb
  refine ⟨_, hostWrite_cmd_of_idle hb v, ?_⟩
  simp

/-- Settles O35: CMD is no input, so neither hazard policy stops the write. -/
theorem commandWriteWhileBusyDropped : Obligations.CommandWriteWhileBusyDropped := by
  intro s v hb
  rw [hostWrite_of_target (target_cmd _) (.inr rfl)]
  simp [State.writeTarget, hb]

/-- Settles O36: a length keeps the low 32 bits of the value. -/
theorem registerWrites : Obligations.RegisterWrites := fun _ v hb =>
  ⟨⟨v.setWidth 32, BitVec.toNat_setWidth 32 v, hostWrite_of_target (target_lenA _) (.inl hb) v,
    hostWrite_of_target (target_lenB _) (.inl hb) v⟩,
    hostWrite_of_target (target_operand _) (.inl hb) v⟩

end Sys2Proof.Machine
end

section
/-!
SUPPORT. What a step that answers can do, said once, and which fields each such effect may change
(10_state R22 to R36).
-/

namespace Sys2Proof.Machine

/-- The effects of a step that answers: one per event that the spec lets change the machine, and `idle`
for the steps that change the host's side, the turns and the draws alone (reads, bus errors, writes of
read-only locations, moves with nothing to do). -/
inductive StepEffect (s : State) : State → Prop where
  | idle (script : List HostStmt) (turns : List Agent) (replies : List Reply) (draws : Nat) :
    StepEffect s { s with script := script, turns := turns, replies := replies, draws := draws }
  | completes {rest : List Agent} {t : State} (move : EngineMoves s rest)
    (keeps : CompletionKeeps { s with turns := rest } t) (busy : t.busy = false)
    (done : t.done = true)
    (wram : t.wram ≠ s.wram → ∃ u, decodeWord s.cmd = .ok (.toWords u)) : StepEffect s t
  | accepts {v : Word} {after : List HostStmt} {rest : List Agent} (replies : List Reply)
    (move : HostMoves s (.wr 0x008 64 v) after rest) (idle : s.busy = false) :
    StepEffect s { s.accept v with script := after, turns := rest, replies := replies }
  | drops {v : Word} {after : List HostStmt} {rest : List Agent} (replies : List Reply)
    (move : HostMoves s (.wr 0x008 64 v) after rest) (busy : s.busy = true) :
    StepEffect s
      { s with overrun := true, script := after, turns := rest, replies := replies }
  | writesInput {off : Nat} {v : Word} {T : Target} {after : List HostStmt} {rest : List Agent}
    (hazard : Bool) (replies : List Reply) (move : HostMoves s (.wr off 64 v) after rest)
    (reaches : target s.cfg off 64 = some T) (input : T.isInput = true) :
    StepEffect s
      { s.writeTarget v T with
        inputHazard := hazard, script := after, turns := rest, replies := replies }
  | resets {level : Bool} {after : List HostStmt} {rest : List Agent}
    (move : HostMoves s (.rst level) after rest) (event : level = true ∨ s.rst = true) :
    StepEffect s { s.applyReset with rst := level, script := after, turns := rest }

/-- A write of an input changes the inputs alone (10_state R20, 20_memory R63). -/
theorem writeTarget_of_isInput (s : State) (v : Word) {T : Target} (hT : T.isInput = true) :
    ∃ lenA lenB operand aram bram, s.writeTarget v T =
      { s with lenA := lenA, lenB := lenB, operand := operand, aram := aram, bram := bram } := by
  cases T with
  | lenA | lenB | operand | aRam j | bRam j => exact ⟨_, _, _, _, _, rfl⟩
  | params | cmd | status | result | wRam k => cases hT

/-- The statement issued and the turn used up stay what they are under a write. -/
theorem writeTarget_hostSide (s : State) (v : Word) (T : Target) (script : List HostStmt)
    (turns : List Agent) :
    ({ s with turns := turns, script := script } : State).writeTarget v T =
      { s.writeTarget v T with turns := turns, script := script } := by
  cases T with
  | cmd => cases hb : s.busy <;> simp [State.writeTarget, hb, State.accept]
  | _ => rfl

/-- A write that answers without a bus error, by its target: CMD, an input, or a read-only location. -/
theorem StepEffect.of_write {s : State} {off : Nat} {v : Word} {T : Target}
    {after : List HostStmt} {rest : List Agent} (hazard : Bool) (replies : List Reply)
    (hm : HostMoves s (.wr off 64 v) after rest) (hT : target s.cfg off 64 = some T)
    (hz : T.isInput = false → hazard = (s.writeTarget v T).inputHazard) :
    StepEffect s { s.writeTarget v T with
      inputHazard := hazard, script := after, turns := rest, replies := replies } := by
  cases T with
  | params | status | result | wRam k =>
    obtain rfl := hz rfl
    exact .idle after rest replies s.draws
  | cmd =>
    obtain rfl := hz rfl
    obtain ⟨-, -, hoff⟩ := target_some _ _ _ _ hT
    obtain rfl : off = 0x008 := hoff
    cases hb : s.busy with
    | false => simpa [State.writeTarget, hb, State.accept] using StepEffect.accepts replies hm hb
    | true => simpa [State.writeTarget, hb] using StepEffect.drops replies hm hb
  | lenA | lenB | operand | aRam j | bRam j => exact .writesInput hazard replies hm hT rfl

/-- The effects of a host statement. -/
theorem StepEffect.of_hostStmt {s t : State} {h : HostStmt} {after : List HostStmt}
    {rest : List Agent} (hm : HostMoves s h after rest)
    (hst : hostStmt h { s with turns := rest, script := after } = .next t) : StepEffect s t := by
  obtain ⟨level, rfl, he⟩ | ⟨-, he, -⟩ | ⟨-, off, bits, v, rfl, he⟩ | ⟨-, x, e, d, sc, -, he⟩ :=
    hostStmt_cases h { s with turns := rest, script := after } <;> rw [he] at hst
  · obtain rfl := Host.Outcome.next.inj hst
    unfold State.driveRst
    split
    · next hev => exact .resets hm (Bool.or_eq_true_iff.mp hev)
    · exact .idle after rest s.replies s.draws
  · cases hst
  · obtain ⟨-, hw⟩ | ⟨T, -, -, -, -, hw⟩ | ⟨T, hT, -, hin, -, hw⟩ | ⟨T, hT, -, hw⟩ :=
      hostWrite_cases off bits v { s with turns := rest, script := after } <;> rw [hw] at hst
    · obtain rfl := Host.Outcome.next.inj hst
      exact .idle after rest _ s.draws
    · cases hst
    · obtain rfl := Host.Outcome.next.inj hst
      obtain ⟨rfl, -, -⟩ := target_some _ _ _ _ hT
      rw [writeTarget_hostSide]
      exact .of_write true _ hm hT (by simp [hin])
    · obtain rfl := Host.Outcome.next.inj hst
      obtain ⟨rfl, -, -⟩ := target_some _ _ _ _ hT
      rw [writeTarget_hostSide]
      exact .of_write _ _ hm hT fun _ => rfl
  · obtain rfl := Host.Outcome.next.inj hst
    exact .idle sc rest _ d

/-- Every step that answers has one of the effects (20_memory R73). -/
theorem StepEffect.of_step {s t : State} (hst : step s = .next t) : StepEffect s t := by
  obtain ⟨rest, hm, he⟩ | ⟨h, after, rest, hm, he⟩ | ⟨rest, he⟩ := step_cases s <;> rw [he] at hst
  · obtain ⟨t', hc, hkeeps, hb, hd, hw⟩ := completion_answers { s with turns := rest }
    obtain rfl : t' = t := Host.Outcome.next.inj (hc.symm.trans hst)
    exact .completes hm hkeeps hb hd hw
  · exact .of_hostStmt hm hst
  · obtain rfl := Host.Outcome.next.inj hst
    exact .idle s.script rest s.replies s.draws

/-- No step changes the parameters (10_state R22). -/
theorem StepEffect.cfg {s t : State} (h : StepEffect s t) : t.cfg = s.cfg := by
  cases h with
  | idle | accepts | drops | resets => rfl
  | completes move keeps busy done wram => exact keeps.cfg
  | @writesInput _ v T _ _ hazard replies move reaches input =>
    obtain ⟨hcfg, -⟩ := writeTarget_keeps s v T
    exact hcfg

end Sys2Proof.Machine
end

section
/-!
Which step changes which register or RAM: each statement by the effects of a step.
-/

namespace Sys2Proof.Machine

/-- Settles O54: BUSY and DONE move together at an accept, a completion and a reset alone. -/
theorem busyAndDoneChangeOnly : Obligations.BusyAndDoneChangeOnly := by
  intro s t hst
  cases StepEffect.of_step hst with
  | idle | drops => simp +contextual
  | completes move keeps busy done wram =>
    refine ⟨fun _ h => ?_, fun _ _ => .inl ⟨done, _, move⟩, fun _ _ => ⟨move.1, busy, _, move⟩,
      fun _ h => ?_⟩
    · simp [busy] at h
    · simp [done] at h
  | accepts replies move idle =>
    exact ⟨fun _ _ => ⟨rfl, _, _, _, move, rfl⟩, fun hb => by simp [idle] at hb,
      fun _ h => by simp at h, fun _ _ => .inl ⟨idle, rfl⟩⟩
  | @writesInput _ v _ _ _ hazard replies move reaches input =>
    obtain ⟨_, _, _, _, _, hw⟩ := writeTarget_of_isInput s v input
    simp +contextual [hw]
  | resets move event =>
    exact ⟨fun _ h => by simp at h, fun _ _ => .inr ⟨_, _, _, move⟩, fun _ h => by simp at h,
      fun _ _ => .inr ⟨_, _, _, move⟩⟩

/-- A write of CMD leaves OVERRUN equal to the BUSY it finds (10_state R27, R38, R39). -/
theorem overrun_of_writeCmd {s t : State} {v : Word} {after : List HostStmt} {rest : List Agent}
    (hm : HostMoves s (.wr 0x008 64 v) after rest) (hst : step s = .next t) :
    t.overrun = s.busy := by
  rw [step_of_hostMoves hm] at hst
  cases hr : s.rst with
  | true => simp [hostStmt, hr] at hst
  | false =>
    simp only [hostStmt, hr, Bool.false_eq_true, if_false,
      hostWrite_of_target (target_cmd _) (.inr rfl)] at hst
    obtain rfl := Host.Outcome.next.inj hst
    cases s.busy <;> simp [State.writeTarget]

/-- Settles O55: the step of a CMD write and of a reset event by the statement issued, the other two
clauses by the effects of a step. -/
theorem overrunChangesOnly : Obligations.OverrunChangesOnly := by
  refine ⟨rfl, fun s t hst => ⟨fun v after rest hm => overrun_of_writeCmd hm hst, ?_, ?_⟩⟩
  · intro level after rest hm hev
    rw [step_of_hostMoves hm] at hst
    obtain rfl := Host.Outcome.next.inj hst
    have hdrive : (level || s.rst) = true := Bool.or_eq_true_iff.mpr hev
    simp [State.driveRst, hdrive]
  · cases StepEffect.of_step hst with
    | idle => simp +contextual
    | completes move keeps busy done wram =>
      have hkeep : t.overrun = s.overrun := keeps.overrun
      simp +contextual [hkeep]
    | accepts replies move idle => exact ⟨fun _ => .inl ⟨_, _, _, move⟩, by simp⟩
    | drops replies move busy => exact ⟨fun _ => .inl ⟨_, _, _, move⟩, by simp⟩
    | @writesInput _ v _ _ _ hazard replies move reaches input =>
      obtain ⟨_, _, _, _, _, hw⟩ := writeTarget_of_isInput s v input
      simp +contextual [hw]
    | resets move event => exact ⟨fun _ => .inr ⟨_, _, _, move⟩, by simp⟩

/-- The Engine's step changes no input and not CMD (20_memory R70, 10_state R23). -/
theorem engineStep_keeps {s t : State} {rest : List Agent} (hm : EngineMoves s rest)
    (hst : step s = .next t) : CompletionKeeps { s with turns := rest } t := by
  obtain ⟨t', hc, hkeeps, -⟩ := completion_answers { s with turns := rest }
  obtain rfl : t' = t := Host.Outcome.next.inj ((step_of_engineMoves hm ▸ hc).symm.trans hst)
  exact hkeeps

/-- Settles O56: the Engine's frame, and the effects of a step for W_RAM and the parameters. -/
theorem storageChangesOnly : Obligations.StorageChangesOnly := by
  intro s t hst
  refine ⟨fun rest hm => ?_, ?_, (StepEffect.of_step hst).cfg⟩
  · have hk := engineStep_keeps hm hst
    exact ⟨hk.lenA, hk.lenB, hk.operand, hk.aram, hk.bram, hk.cmd⟩
  · cases StepEffect.of_step hst with
    | idle | accepts | drops => exact fun h => absurd rfl h
    | completes move keeps busy done wram =>
      intro h
      obtain ⟨u, hu⟩ := wram h
      exact .inl ⟨_, u, move, hu⟩
    | @writesInput _ v T _ _ hazard replies move reaches input =>
      obtain ⟨-, -, hwram, -⟩ := writeTarget_keeps s v T
      exact fun h => absurd hwram h
    | resets move event => exact fun _ => .inr ⟨_, _, _, move⟩

/-- Settles O57: an input's register is told from the others by its offset. -/
theorem registersChangeOnly : Obligations.RegistersChangeOnly := by
  intro s t hst
  cases StepEffect.of_step hst with
  | resets move event => exact .inl ⟨_, _, _, move⟩
  | idle | drops => exact .inr (by simp)
  | completes move keeps busy done wram =>
    have hcmd : t.cmd = s.cmd := keeps.cmd
    have hlenA : t.lenA = s.lenA := keeps.lenA
    have hlenB : t.lenB = s.lenB := keeps.lenB
    have hoperand : t.operand = s.operand := keeps.operand
    exact .inr ⟨fun h => absurd hcmd h, fun _ => ⟨_, move⟩, fun _ => .inl ⟨_, move⟩,
      fun h => absurd hlenA h, fun h => absurd hlenB h, fun h => absurd hoperand h⟩
  | accepts replies move idle =>
    exact .inr ⟨fun _ => ⟨idle, _, _, move⟩, by simp, fun _ => .inr ⟨idle, _, _, _, move⟩,
      by simp, by simp, by simp⟩
  | @writesInput off v T after rest hazard replies move reaches input =>
    obtain ⟨-, -, hoff⟩ := target_some _ _ _ _ reaches
    right
    cases T with
    | lenA =>
      obtain rfl : off = 0x018 := hoff
      simp only [State.writeTarget]
      exact ⟨by simp, by simp, by simp, fun _ => ⟨v, _, _, move, BitVec.toNat_setWidth 32 v⟩,
        by simp, by simp⟩
    | lenB =>
      obtain rfl : off = 0x020 := hoff
      simp only [State.writeTarget]
      exact ⟨by simp, by simp, by simp, by simp,
        fun _ => ⟨v, _, _, move, BitVec.toNat_setWidth 32 v⟩, by simp⟩
    | operand =>
      obtain rfl : off = 0x028 := hoff
      simp only [State.writeTarget]
      exact ⟨by simp, by simp, by simp, by simp, by simp, fun _ => ⟨_, _, move⟩⟩
    | aRam j | bRam j => simp [State.writeTarget]
    | params | cmd | status | result | wRam k => cases input

/-- A byte that a word's write at byte k changes lies in that word (00_scope R10). -/
theorem eq_of_lookup_writeBytes_ne {m : Memory} {k j : Nat} {v : Word} (hwf : m.wf)
    (hk : k % 8 = 0) (h : (m.writeBytes k 8 v).lookup j ≠ m.lookup j) : 8 * (j / 8) = k := by
  by_contra hout
  exact h ((Memory.lookup_writeBytes m k 8 v j hwf).trans (if_neg (by omega)))

/-- Settles O58: of all effects of a step, only a write to the RAM and a reset change it. -/
theorem signaturesChangeOnly : Obligations.SignaturesChangeOnly := by
  intro s t j hst
  cases StepEffect.of_step hst with
  | idle | accepts | drops => exact ⟨fun _ h => absurd rfl h, fun _ h => absurd rfl h⟩
  | completes move keeps busy done wram =>
    rw [keeps.aram, keeps.bram]
    exact ⟨fun _ h => absurd rfl h, fun _ h => absurd rfl h⟩
  | @writesInput off v T after rest hazard replies move reaches input =>
    obtain ⟨-, h8, hoff⟩ := target_some _ _ _ _ reaches
    cases T with
    | aRam k =>
      obtain ⟨rfl, -⟩ := hoff
      refine ⟨fun hwf h => .inl ?_, fun _ h => absurd rfl h⟩
      rw [eq_of_lookup_writeBytes_ne hwf (by omega) h]
      exact ⟨_, _, _, move⟩
    | bRam k =>
      obtain ⟨rfl, -⟩ := hoff
      refine ⟨fun _ h => absurd rfl h, fun hwf h => .inl ?_⟩
      rw [eq_of_lookup_writeBytes_ne hwf (by omega) h]
      exact ⟨_, _, _, move⟩
    | lenA | lenB | operand => exact ⟨fun _ h => absurd rfl h, fun _ h => absurd rfl h⟩
    | params | cmd | status | result | wRam k => cases input
  | resets move event => exact ⟨fun _ _ => .inr ⟨_, _, _, move⟩, fun _ _ => .inr ⟨_, _, _, move⟩⟩

end Sys2Proof.Machine
end

section
/-!
SUPPORT. What a command's verdict rests on: the registers 10_state R41 lists for it and, where it raises
no error, the bytes it reads (20_memory R69, R70, 70_reset_and_hazards R244).
-/

namespace Sys2Proof.Machine

/-- A written byte reads the same in two RAMs that both hold it, whatever the free values. -/
theorem view_eq_of_sameWritten {m m' : Memory} {n : Nat} (h : SameWritten m m' n)
    (free free' : Nat → Byte) : ∀ j < n, m'.view free' j = m.view free j := by
  intro j hj
  obtain ⟨hne, heq⟩ := h j hj
  obtain ⟨b, hb⟩ := Option.ne_none_iff_exists'.mp hne
  rw [Memory.view_of_lookup m free j b hb, Memory.view_of_lookup m' free' j b (heq.trans hb)]

/-- The distance of two machines that hold the same written bytes in its n elements. -/
theorem distance_eq_of_sameWritten (w : Width) {s s' : State} {n na nb : Nat}
    (ha : SameWritten s.aram s'.aram na) (hb : SameWritten s.bram s'.bram nb)
    (hna : n * w.bytes ≤ na) (hnb : n * w.bytes ≤ nb) :
    distance w s'.aByte s'.bByte n = distance w s.aByte s.bByte n :=
  distance_congr w _ _ _ _ n
    (fun j hj => view_eq_of_sameWritten ha _ _ j (hj.trans_le hna))
    (fun j hj => view_eq_of_sameWritten hb _ _ j (hj.trans_le hnb))

/-- A word of a RAM rests on its own eight bytes. -/
theorem toWord_congr {ram ram' : Nat → Byte} {k : Nat}
    (h : ∀ t < 8, ram (8 * k + t) = ram' (8 * k + t)) : toWord ram k = toWord ram' k :=
  memWord_eq ram (8 * k) (toWord ram' k) fun t ht =>
    (h t ht).trans (memWord_byte ram' (8 * k) t ht).symm

/-- The words of a conversion rest on the bytes they are made of (43_width_conversion R190). -/
theorem wordWrites_congr {ram ram' : Nat → Byte} (n : Nat) (h : ∀ j < 8 * n, ram j = ram' j) :
    wordWrites ram n = wordWrites ram' n := by
  induction n with
  | zero => rfl
  | succ n ih =>
    simp only [wordWrites]
    rw [ih fun j hj => h j (by omega), toWord_congr fun t ht => h _ (by omega)]

/-- POPCNT8 reads OPERAND[7:0] alone (40_popcount R123). -/
theorem popcount_eq_of_setWidth_eq (bits : Nat) {x y : Word}
    (h : x.setWidth bits = y.setWidth bits) : popcount bits x = popcount bits y := by
  refine popcount_congr bits x y fun p hp => ?_
  simpa [BitVec.getLsbD_setWidth, hp] using congrArg (fun z => z.getLsbD p) h

/-- Two machines with the same capacity, LEN_A and LEN_B take the same branch of DIST; in the last one
they must have the same distance. -/
theorem distVerdict_congr (w : Width) {s s' : State} (hcap : s'.cfg.maxBytes = s.cfg.maxBytes)
    (ha : s'.la = s.la) (hb : s'.lb = s.lb)
    (hd : s.la ≤ capacity w s → s.la = s.lb →
      distance w s'.aByte s'.bByte s.la = distance w s.aByte s.bByte s.la) :
    distVerdict w s' = distVerdict w s := by
  have hc : capacity w s' = capacity w s := by simp [capacity, hcap]
  unfold distVerdict
  rw [hc, ha, hb]
  split_ifs with h1 h2 h3
  · rfl
  · rfl
  · rfl
  · rw [hd (by omega) (by omega)]

/-- The same for DISTB2Q. -/
theorem bridgeVerdict_congr {s s' : State} (hcap : s'.cfg.maxBytes = s.cfg.maxBytes)
    (ha : s'.la = s.la) (hb : s'.lb = s.lb)
    (hd : s.la ≤ s.cfg.maxBytes → s.la % 8 = 0 → s.la = s.lb →
      distance .quad s'.aByte s'.bByte (s.la / 8) = distance .quad s.aByte s.bByte (s.la / 8)) :
    bridgeVerdict s' = bridgeVerdict s := by
  unfold bridgeVerdict
  simp only [bridge_eq_distance, hcap, ha, hb]
  split_ifs with h1 h2 h3 h4 h5
  · rfl
  · rfl
  · rfl
  · rfl
  · rfl
  · rw [hd (by omega) (by omega) (by omega)]

/-- The same for TOWORDS. -/
theorem convertVerdict_congr {s s' : State} (hcap : s'.cfg.maxBytes = s.cfg.maxBytes)
    (ha : s'.la = s.la)
    (hw : s.la ≤ s.cfg.maxBytes → s.la % 8 = 0 → ∀ j < s.la, s'.aByte j = s.aByte j) :
    convertVerdict s' = convertVerdict s := by
  unfold convertVerdict
  rw [hcap, ha]
  split_ifs with h1 h2
  · rfl
  · rfl
  · rw [wordWrites_congr (s.la / 8) fun j hj => hw (by omega) (by omega) j (by omega)]

/-- A variable-length distance of two equal lengths within the capacity raises no error. -/
theorem noCause_distB {s : State} (u : Unroll) (hle : s.la ≤ s.cfg.maxBytes) (heq : s.la = s.lb) :
    firstCause (errorCauses s (.distB u)) = none := by
  simp [errorCauses, firstCause, ← heq, hle.not_gt]

theorem noCause_distQ {s : State} (u : Unroll) (hle : s.la ≤ s.cfg.maxBytes / 8)
    (heq : s.la = s.lb) : firstCause (errorCauses s (.distQ u)) = none := by
  simp [errorCauses, firstCause, ← heq, hle.not_gt]

theorem noCause_distB2Q {s : State} (u : Unroll) (hle : s.la ≤ s.cfg.maxBytes) (h8 : s.la % 8 = 0)
    (heq : s.la = s.lb) : firstCause (errorCauses s (.distB2Q u)) = none := by
  simp [errorCauses, firstCause, ← heq, hle.not_gt, h8]

theorem noCause_toWords {s : State} (u : Unroll) (hle : s.la ≤ s.cfg.maxBytes)
    (h8 : s.la % 8 = 0) : firstCause (errorCauses s (.toWords u)) = none := by
  simp [errorCauses, firstCause, hle, h8]

/-- The verdict of a command is the same in two machines of one capacity that agree in the registers it
reads and, where it raises no error, hold the same written values in the bytes it reads. -/
theorem verdictOf_congr (i : Instr) {s s' : State} (hcap : s'.cfg.maxBytes = s.cfg.maxBytes)
    (hin : SameInputs s s' i)
    (hread : firstCause (errorCauses s i) = none →
      SameWritten s.aram s'.aram (bytesReadA s i) ∧
        SameWritten s.bram s'.bram (bytesReadB s i)) :
    verdictOf s' i = verdictOf s i := by
  cases i with
  | popcnt8 => exact congrArg (succeed · []) (popcount_eq_of_setWidth_eq 8 hin)
  | popcnt64 => exact congrArg (fun x => succeed (popcount 64 x) []) hin
  | dist32B u =>
    obtain ⟨hra, hrb⟩ := hread rfl
    exact congrArg (succeed · []) (distance_eq_of_sameWritten .byte hra hrb le_rfl le_rfl)
  | dist4Q u =>
    obtain ⟨hra, hrb⟩ := hread rfl
    exact congrArg (succeed · []) (distance_eq_of_sameWritten .quad hra hrb le_rfl le_rfl)
  | dist8Q u =>
    obtain ⟨hra, hrb⟩ := hread rfl
    exact congrArg (succeed · []) (distance_eq_of_sameWritten .quad hra hrb le_rfl le_rfl)
  | distB u =>
    obtain ⟨ha, hb⟩ := hin
    refine distVerdict_congr .byte hcap (congrArg BitVec.toNat ha) (congrArg BitVec.toNat hb)
      fun hle heq => ?_
    obtain ⟨hra, hrb⟩ := hread (noCause_distB u (by simpa [capacity, Width.bytes] using hle) heq)
    exact distance_eq_of_sameWritten .byte hra hrb
      (by simp only [Width.bytes, bytesReadA]; omega)
      (by simp only [Width.bytes, bytesReadB]; omega)
  | distQ u =>
    obtain ⟨ha, hb⟩ := hin
    refine distVerdict_congr .quad hcap (congrArg BitVec.toNat ha) (congrArg BitVec.toNat hb)
      fun hle heq => ?_
    obtain ⟨hra, hrb⟩ := hread (noCause_distQ u hle heq)
    exact distance_eq_of_sameWritten .quad hra hrb
      (by simp only [Width.bytes, bytesReadA]; omega)
      (by simp only [Width.bytes, bytesReadB]; omega)
  | distB2Q u =>
    obtain ⟨ha, hb⟩ := hin
    refine bridgeVerdict_congr hcap (congrArg BitVec.toNat ha) (congrArg BitVec.toNat hb)
      fun hle h8 heq => ?_
    obtain ⟨hra, hrb⟩ := hread (noCause_distB2Q u hle h8 heq)
    exact distance_eq_of_sameWritten .quad hra hrb
      (by simp only [Width.bytes, bytesReadA]; omega)
      (by simp only [Width.bytes, bytesReadB]; omega)
  | toWords u =>
    refine convertVerdict_congr hcap (congrArg BitVec.toNat (show s'.lenA = s.lenA from hin))
      fun hle h8 => ?_
    obtain ⟨hra, -⟩ := hread (noCause_toWords u hle h8)
    exact view_eq_of_sameWritten hra _ _

/-- Below 8 RESULT the bytes of W_RAM after a conversion that raised no error are those it stored,
whatever W_RAM held (43_width_conversion R192). -/
theorem lookup_convert_congr {m m' : Memory} (s : State) (hm : m.wf) (hm' : m'.wf)
    (hok : (convertVerdict s).err = .noError) :
    ∀ j < 8 * (convertVerdict s).res.toNat,
      (m'.writeWords (convertVerdict s).wr).lookup j =
        (m.writeWords (convertVerdict s).wr).lookup j := by
  intro j hj
  obtain ⟨-, hv⟩ | ⟨-, -, hv⟩ | ⟨-, -, hv⟩ := convertVerdict_cases s <;> rw [hv] at hok hj ⊢
  · cases hok
  · cases hok
  · have hres : (BitVec.ofNat 64 (s.la / 8)).toNat ≤ s.la / 8 := by
      rw [BitVec.toNat_ofNat]; exact Nat.mod_le _ _
    have hlt : j < 8 * (s.la / 8) := lt_of_lt_of_le hj (Nat.mul_le_mul_left 8 hres)
    simp only [succeed]
    rw [Memory.lookup_wordWrites _ _ _ _ hm, Memory.lookup_wordWrites _ _ _ _ hm',
      if_pos hlt, if_pos hlt]

/-- Settles O27: the two completions have one verdict. -/
theorem onlyReadBytesMatter : Obligations.OnlyReadBytesMatter := by
  intro i s s' hz hz' hwf hwf' hcap hin hread
  have hv : verdictOf s' i = verdictOf s i := verdictOf_congr i hcap hin hread
  refine ⟨_, _, exec_of_quiet i s hz, exec_of_quiet i s' hz', ?_⟩
  rw [hv]
  refine ⟨rfl, rfl, rfl, fun hi hok j hj => ?_⟩
  cases i with
  | toWords u => exact lookup_convert_congr s hwf hwf' hok j hj
  | _ => cases hi

end Sys2Proof.Machine
end

section
/-!
SUPPORT. Host moves while a command is in flight: out of reset and with the policy to go on they answer,
and where they keep the hazard rule they leave the command's outcome alone (20_memory R73, R74).
-/

namespace Sys2Proof.Machine

/-- A host write while BUSY leaves BUSY, under the policy to go on (10_state R25, R39). -/
theorem hostWrite_of_busy {s : State} (hb : s.busy = true) (hp : s.cfg.hazardPolicy = .goOn)
    (off bits : Nat) (v : Word) :
    Answers (hostWrite off bits v s) fun t => t.busy = true ∧ t.turns = s.turns := by
  obtain ⟨-, hw⟩ | ⟨T, -, -, -, hstop, -⟩ | ⟨T, -, -, hin, -, hw⟩ | ⟨T, -, hsafe, hw⟩ :=
    hostWrite_cases off bits v s
  · exact ⟨_, hw, hb, rfl⟩
  · simp [hp] at hstop
  · obtain ⟨_, _, _, _, _, hT⟩ := writeTarget_of_isInput s v hin
    exact ⟨_, hw, by simp [hT, hb], by simp [hT]⟩
  · refine ⟨_, hw, ?_⟩
    cases T with
    | cmd => simp [State.writeTarget, hb]
    | lenA | lenB | operand | aRam j | bRam j => exact absurd ⟨hb, rfl⟩ hsafe
    | params | status | result | wRam k => exact ⟨hb, rfl⟩

/-- A host statement while BUSY answers, and leaves BUSY unless it asserts `rst`. -/
theorem hostStmt_of_busy {s : State} (hb : s.busy = true) (hr : s.rst = false)
    (hp : s.cfg.hazardPolicy = .goOn) (h : HostStmt) :
    Answers (hostStmt h s) fun t =>
      t.turns = s.turns ∧ (t.busy = true ∨ t.busy = false ∧ t.rst = true) := by
  obtain ⟨level, rfl, he⟩ | ⟨hr', -, -⟩ | ⟨-, off, bits, v, -, he⟩ | ⟨-, x, e, d, sc, -, he⟩ :=
    hostStmt_cases h s
  · refine ⟨_, he, ?_⟩
    cases level <;> simp [State.driveRst, hr, hb]
  · simp [hr] at hr'
  · obtain ⟨t, hw, hbusy, hturns⟩ := hostWrite_of_busy hb hp off bits v
    exact ⟨t, he.trans hw, hturns, .inl hbusy⟩
  · exact ⟨_, he, rfl, .inl hb⟩

/-- A host turn is the next statement, or nothing when there is none. -/
theorem step_of_hostTurn {s : State} {ts : List Agent} (ht : s.turns = .host :: ts) :
    step s = hostTurn { s with turns := ts } := by
  simp [step, nextTurn, ht]

/-- A host turn while BUSY answers, and leaves BUSY unless it asserts `rst`. -/
theorem hostTurn_of_busy {s : State} (hb : s.busy = true) (hr : s.rst = false)
    (hp : s.cfg.hazardPolicy = .goOn) :
    Answers (hostTurn s) fun t =>
      t.turns = s.turns ∧ (t.busy = true ∨ t.busy = false ∧ t.rst = true) := by
  unfold hostTurn
  split
  · exact ⟨s, rfl, rfl, .inl hb⟩
  · next h rest _ => exact hostStmt_of_busy (s := { s with script := rest }) hb hr hp h

/-- The Engine's step ends the command (10_state R40). -/
theorem step_of_engineMoves_completes {s : State} {rest : List Agent} (hm : EngineMoves s rest) :
    Answers (step s) fun t => t.busy = false ∧ t.done = true := by
  obtain ⟨t, hc, -, hb, hd, -⟩ := completion_answers { s with turns := rest }
  exact ⟨t, (step_of_engineMoves hm).trans hc, hb, hd⟩

/-- The command in flight ends within the turns placed before its completion and one more. -/
theorem run_ends_of_busy (ts : List Agent) :
    ∀ s : State, s.turns = ts → s.Inv → s.busy = true → s.cfg.hazardPolicy = .goOn →
      ∃ k ≤ ts.length + 1,
        Answers (Host.Core.run Sys2Proof.core k s) fun t =>
          t.busy = false ∧ (t.done = true ∨ t.rst = true) := by
  have engine : ∀ (s : State) (rest : List Agent) (n : Nat), EngineMoves s rest →
      ∃ k ≤ n + 1, Answers (Host.Core.run Sys2Proof.core k s) fun t =>
        t.busy = false ∧ (t.done = true ∨ t.rst = true) := by
    intro s rest n hm
    obtain ⟨t, hst, hb, hd⟩ := step_of_engineMoves_completes hm
    exact ⟨1, by omega, t, run_of_step 0 s t hst, hb, .inl hd⟩
  induction ts with
  | nil => exact fun s ht _ hb _ => engine s [] _ ⟨hb, .inr ⟨ht, rfl⟩⟩
  | cons agent ts ih =>
    intro s ht hinv hb hp
    cases agent with
    | engine => exact engine s ts _ ⟨hb, .inl ht⟩
    | host =>
      obtain ⟨t, he, hturns, hend⟩ :=
        hostTurn_of_busy (s := { s with turns := ts }) hb (hinv.status.rst_of_busy hb) hp
      have hst : step s = .next t := (step_of_hostTurn ht).trans he
      obtain hbusy | ⟨hidle, hrst⟩ := hend
      · have hcfg : t.cfg = s.cfg := (StepEffect.of_step hst).cfg
        obtain ⟨k, hk, u, hrun, hu⟩ := ih t hturns (hinv.step hst) hbusy (by rw [hcfg, hp])
        exact ⟨k + 1, by simpa using hk, u, (run_of_step k s t hst).trans hrun, hu⟩
      · exact ⟨1, by omega, t, run_of_step 0 s t hst, hidle, .inr hrst⟩

/-- Settles O52, by induction on the turns placed. -/
theorem everyCommandCompletes : Obligations.EveryCommandCompletes :=
  fun s hinv hb hp => run_ends_of_busy s.turns s rfl hinv hb hp

end Sys2Proof.Machine
end

section
/-!
The outcome of a command wherever its completion falls: host moves that keep the hazard rule leave
everything a completion reads and everything it leaves behind (20_memory R73, R74).
-/

namespace Sys2Proof.Machine

/-- The two machines differ at most in OVERRUN, the host's side, the turns and the draws. -/
structure SameCommand (s t : State) : Prop where
  cfg : t.cfg = s.cfg
  cmd : t.cmd = s.cmd
  busy : t.busy = s.busy
  lenA : t.lenA = s.lenA
  lenB : t.lenB = s.lenB
  operand : t.operand = s.operand
  aram : t.aram = s.aram
  bram : t.bram = s.bram
  wram : t.wram = s.wram
  rst : t.rst = s.rst
  inputHazard : t.inputHazard = s.inputHazard

theorem SameCommand.hostSide (s : State) (overrun : Bool) (script : List HostStmt)
    (turns : List Agent) (replies : List Reply) (draws : Nat) :
    SameCommand s { s with
      overrun := overrun, script := script, turns := turns, replies := replies, draws := draws } :=
  ⟨rfl, rfl, rfl, rfl, rfl, rfl, rfl, rfl, rfl, rfl, rfl⟩

theorem SameCommand.trans {s t u : State} (h : SameCommand s t) (h' : SameCommand t u) :
    SameCommand s u :=
  ⟨h'.cfg.trans h.cfg, h'.cmd.trans h.cmd, h'.busy.trans h.busy, h'.lenA.trans h.lenA,
    h'.lenB.trans h.lenB, h'.operand.trans h.operand, h'.aram.trans h.aram,
    h'.bram.trans h.bram, h'.wram.trans h.wram, h'.rst.trans h.rst,
    h'.inputHazard.trans h.inputHazard⟩

/-- A command reads the same registers in both machines. -/
theorem SameCommand.sameInputs {s t : State} (h : SameCommand s t) (i : Instr) :
    SameInputs s t i := by
  cases i with
  | popcnt8 => exact congrArg _ h.operand
  | popcnt64 => exact h.operand
  | distB u | distQ u | distB2Q u => exact ⟨h.lenA, h.lenB⟩
  | dist32B u | dist4Q u | dist8Q u => trivial
  | toWords u => exact h.lenA

/-- A RAM whose bytes are written is the same written RAM as an equal one. -/
theorem sameWritten_of_eq {m m' : Memory} {n : Nat} (h : m' = m) (hw : Written m n) :
    SameWritten m m' n :=
  fun j hj => ⟨hw j hj, by rw [h]⟩

/-- A completion of the command word, or of ILLEGAL_COMMAND, with one verdict in both machines. -/
theorem SameCommand.completion {s t : State} (h : SameCommand s t) (hz : s.inputHazard = false)
    (hwritten : ∀ i, decodeWord s.cmd = .ok i → firstCause (errorCauses s i) = none →
      Written s.aram (bytesReadA s i) ∧ Written s.bram (bytesReadB s i)) :
    ∃ v, completion s = .next (s.complete v) ∧ completion t = .next (t.complete v) := by
  have hzt : t.inputHazard = false := h.inputHazard.trans hz
  cases hdec : decodeWord s.cmd with
  | error r =>
    have hdect : decodeWord t.cmd = .error r := by rw [h.cmd, hdec]
    exact ⟨raise .illegalCommand .a,
      (completion_of_illegal hdec).trans (finish_of_quiet _ _ _ hz),
      (completion_of_illegal hdect).trans (finish_of_quiet _ _ _ hzt)⟩
  | ok i =>
    have hdect : decodeWord t.cmd = .ok i := by rw [h.cmd, hdec]
    have hv : verdictOf t i = verdictOf s i :=
      verdictOf_congr i (congrArg _ h.cfg) (h.sameInputs i) fun hnone =>
        have hw := hwritten i hdec hnone
        ⟨sameWritten_of_eq h.aram hw.1, sameWritten_of_eq h.bram hw.2⟩
    refine ⟨verdictOf s i, (completion_of_decode hdec).trans (exec_of_quiet i s hz), ?_⟩
    rw [completion_of_decode hdect, exec_of_quiet i t hzt, hv]

/-- A host write that keeps the hazard rule while BUSY leaves the command and its inputs. -/
theorem hostWrite_of_keepsInputs {s : State} (hb : s.busy = true) {off bits : Nat} {v : Word}
    (hk : (HostStmt.wr off bits v).keepsInputs s.cfg = true) :
    Answers (hostWrite off bits v s) fun t =>
      SameCommand s t ∧ t.turns = s.turns ∧ t.script = s.script := by
  cases hT : target s.cfg off bits with
  | none =>
    exact ⟨s.reply (.write true), by simp [hostWrite, hT], .hostSide s _ _ _ _ _, rfl, rfl⟩
  | some T =>
    have hin : T.isInput = false := by simpa [HostStmt.keepsInputs, hT] using hk
    refine ⟨_, hostWrite_of_target hT (.inr hin) v, ?_⟩
    cases T with
    | lenA | lenB | operand | aRam j | bRam j => cases hin
    | params | status | result | wRam k => exact ⟨.hostSide s _ _ _ _ _, rfl, rfl⟩
    | cmd =>
      rw [State.writeTarget, if_pos hb]
      exact ⟨.hostSide s true _ _ _ _, rfl, rfl⟩

/-- A host statement that keeps the hazard rule while BUSY leaves the command and its inputs; POLL may
stay the next statement (30_encoding R104). -/
theorem hostStmt_of_keepsInputs {s : State} (hb : s.busy = true) (hr : s.rst = false) {h : HostStmt}
    (hk : h.keepsInputs s.cfg = true) :
    Answers (hostStmt h s) fun t =>
      SameCommand s t ∧ t.turns = s.turns ∧ t.script ⊆ h :: s.script := by
  cases h with
  | rst level => cases hk
  | rd off bits =>
    obtain ⟨x, e, d, hx⟩ := hostRead_eq off bits s
    have he : hostStmt (.rd off bits) s = .next (hostRead off bits s) := by simp [hostStmt, hr]
    exact ⟨_, he.trans (congrArg _ hx), .hostSide s _ _ _ _ _, rfl, List.subset_cons_self _ _⟩
  | wr off bits v =>
    obtain ⟨t, hw, hsame, hturns, hscript⟩ := hostWrite_of_keepsInputs hb hk
    exact ⟨t, by simp [hostStmt, hr, hw], hsame, hturns, hscript ▸ List.subset_cons_self _ _⟩
  | poll =>
    obtain ⟨x, e, d, hx⟩ := hostRead_eq 0x010 64 s
    have he : hostStmt .poll s = .next { hostRead 0x010 64 s with script := .poll :: s.script } := by
      simp [hostStmt, hr, hostPoll, statusWord_busy, hb]
    rw [hx] at he
    exact ⟨_, he, .hostSide s _ _ _ _ _, rfl, List.Subset.refl _⟩

/-- A host turn whose script keeps the hazard rule leaves the command, its inputs and the rule. -/
theorem hostTurn_of_keepsInputs {s : State} (hb : s.busy = true) (hr : s.rst = false)
    (hk : ∀ h ∈ s.script, h.keepsInputs s.cfg = true) :
    Answers (hostTurn s) fun t =>
      SameCommand s t ∧ t.turns = s.turns ∧ t.script ⊆ s.script := by
  unfold hostTurn
  split
  · exact ⟨s, rfl, .hostSide s _ _ _ _ _, rfl, List.Subset.refl _⟩
  · next h after hs =>
    have hk' : h.keepsInputs s.cfg = true := hk h (hs ▸ List.mem_cons_self)
    obtain ⟨t, he, hsame, hturns, hscript⟩ :=
      hostStmt_of_keepsInputs (s := { s with script := after }) hb hr hk'
    exact ⟨t, he, (SameCommand.hostSide s _ _ _ _ _).trans hsame, hturns, hs ▸ hscript⟩

/-- After n host turns that keep the hazard rule the machine runs on from one with the same command. -/
theorem run_hostTurns (n : Nat) (ts : List Agent) :
    ∀ s : State, s.turns = List.replicate n .host ++ ts → s.busy = true → s.rst = false →
      (∀ h ∈ s.script, h.keepsInputs s.cfg = true) →
      ∃ t : State, SameCommand s t ∧ t.turns = ts ∧
        Host.Core.run Sys2Proof.core (n + 1) s = Host.Core.run Sys2Proof.core 1 t := by
  induction n with
  | zero => exact fun s ht _ _ _ => ⟨s, .hostSide s _ _ _ _ _, ht, rfl⟩
  | succ n ih =>
    intro s ht hb hr hk
    obtain ⟨t, he, hsame, hturns, hscript⟩ :=
      hostTurn_of_keepsInputs (s := { s with turns := List.replicate n .host ++ ts }) hb hr hk
    have hst : step s = .next t := (step_of_hostTurn ht).trans he
    have hcfg : t.cfg = s.cfg := hsame.cfg
    obtain ⟨u, hsame', hturns', hrun⟩ := ih t hturns (hsame.busy.trans hb) (hsame.rst.trans hr)
      fun h hh => by rw [hcfg]; exact hk h (hscript hh)
    exact ⟨u, (SameCommand.hostSide s _ _ _ _ _).trans (hsame.trans hsame'), hturns',
      (run_of_step (n + 1) s t hst).trans hrun⟩

/-- One step with the Engine's turn is the completion. -/
theorem run_engineTurn {s t : State} {rest : List Agent} (hm : EngineMoves s rest)
    (hc : completion { s with turns := rest } = .next t) :
    Host.Core.run Sys2Proof.core 1 s = Host.Outcome.next t :=
  run_of_step 0 s t ((step_of_engineMoves hm).trans hc)

/-- Settles O59: the completion after the host moves has the verdict of the completion at once. -/
theorem outcomeSameForEveryPlacement : Obligations.OutcomeSameForEveryPlacement := by
  intro s n hb hz hr hk hwritten
  obtain ⟨t, hsame, hturns, hrun⟩ :=
    run_hostTurns n [.engine] { s with turns := List.replicate n .host ++ [.engine] } rfl hb hr hk
  have hlast : SameCommand { s with turns := [] } { t with turns := [] } :=
    ((SameCommand.hostSide { s with turns := [] } _ _ _ _ _).trans hsame).trans
      (.hostSide t _ _ _ _ _)
  obtain ⟨v, hs, ht⟩ := hlast.completion hz hwritten
  refine ⟨_, _, run_engineTurn ⟨hb, .inl rfl⟩ hs,
    hrun.trans (run_engineTurn ⟨hsame.busy.trans hb, .inl hturns⟩ ht), ?_⟩
  simp [hsame.cmd, hsame.wram, hsame.aram, hsame.bram, hsame.lenA, hsame.lenB, hsame.operand]

end Sys2Proof.Machine
end

section
/-!
SUPPORT. The bytes of a command word (20_memory R68), and what a command's encoding decodes to
(30_encoding R99, R100).
-/

namespace Sys2Proof.Machine

/-- The eight bytes of a word, taken back little-endian, are the word (20_memory R68). -/
theorem takeWord_wordBytes (w : Word) (rest : List Byte) :
    takeWord (wordBytes w ++ rest) = some (w, rest) := by
  have hw : memWord (fun t => w.extractLsb' (8 * t) 8) 0 = w :=
    memWord_eq _ 0 w fun t _ => by rw [Nat.zero_add]
  exact congrArg (fun x => some (x, rest)) hw

/-- A command with a legal hint keeps it (30_encoding R96). -/
theorem unlessFull_of_ne {u : Unroll} (hu : u ≠ .full) (i : Instr) : unlessFull u i = .ok i :=
  if_neg hu

/-- The encoding of a well-formed command decodes to it (30_encoding R99). -/
theorem decodeWord_encode {i : Instr} (hi : i.wellFormed = true) :
    decodeWord (encode i) = .ok i := by
  cases i with
  | popcnt8 | popcnt64 | dist32B u | dist4Q u | dist8Q u => exact decodeWord_pack _ _ _
  | distB u | distQ u | distB2Q u | toWords u =>
    exact (decodeWord_pack _ _ _).trans (unlessFull_of_ne (bne_iff_ne.mp hi) _)

/-- The word at the head of a byte string is what the string decodes as. -/
theorem decodeBytes_of_takeWord {bytes rest : List Byte} {w : Word} {i : Instr}
    (ht : takeWord bytes = some (w, rest)) (hi : decodeWord w = .ok i) :
    decodeBytes bytes = .ok (i, rest) := by
  simp [decodeBytes, ht, hi]

/-- Settles O2: the bytes are the word again, and the word decodes. -/
theorem encodedBytesDecode : Obligations.EncodedBytesDecode := fun _ _ hi =>
  decodeBytes_of_takeWord (takeWord_wordBytes _ _) (decodeWord_encode hi)

end Sys2Proof.Machine
end

section
/-!
SUPPORT. A RAM word as one read finds it: eight written bytes fix it, whatever the free values
(20_memory R68, R80).
-/

namespace Sys2Proof.Machine

/-- A word of eight written bytes, little-endian (20_memory R68). -/
theorem memWord_view_of_lookup {m : Memory} {j : Nat} {bytes : Nat → Byte}
    (h : ∀ t < 8, m.lookup (j + t) = some (bytes t)) (free : Nat → Byte) :
    memWord (m.view free) j = memWord bytes 0 := by
  refine memWord_eq _ _ _ fun t ht => ?_
  rw [Memory.view_of_lookup m free _ _ (h t ht), memWord_byte bytes 0 t ht, Nat.zero_add]

/-- A word of eight written bytes reads the same at every draw (20_memory R80). -/
theorem memWord_view_congr {m : Memory} {j : Nat} (h : ∀ t < 8, m.lookup (j + t) ≠ none)
    (free free' : Nat → Byte) : memWord (m.view free) j = memWord (m.view free') j := by
  have hbyte : ∀ t < 8, m.lookup (j + t) = some (m.view free' (j + t)) := by
    intro t ht
    obtain ⟨b, hb⟩ := Option.ne_none_iff_exists'.mp (h t ht)
    rw [hb, Memory.view_of_lookup m free' _ b hb]
  rw [memWord_view_of_lookup hbyte free, memWord_view_of_lookup hbyte free']

/-- Byte t of a word just written is data bits 8t+7:8t (20_memory R68). -/
theorem Memory.lookup_writeBytes_inside {m : Memory} (hwf : m.wf) (j : Nat) (v : Word) {t : Nat}
    (ht : t < 8) : (m.writeBytes j 8 v).lookup (j + t) = some (v.extractLsb' (8 * t) 8) := by
  rw [Memory.lookup_writeBytes m j 8 v _ hwf, if_pos (by omega), Nat.add_sub_cancel_left]

/-- A word's write changes no byte outside it (00_scope R10). -/
theorem Memory.lookup_writeBytes_outside {m : Memory} (hwf : m.wf) {j i : Nat} (v : Word)
    (hi : ¬(j ≤ i ∧ i < j + 8)) : (m.writeBytes j 8 v).lookup i = m.lookup i :=
  (Memory.lookup_writeBytes m j 8 v i hwf).trans (if_neg hi)

/-- A word just written reads back. -/
theorem memWord_view_writeBytes {m : Memory} (hwf : m.wf) (j : Nat) (v : Word)
    (free : Nat → Byte) : memWord ((m.writeBytes j 8 v).view free) j = v :=
  memWord_eq _ _ _ fun _ ht =>
    Memory.view_of_lookup _ free _ _ (Memory.lookup_writeBytes_inside hwf j v ht)

end Sys2Proof.Machine
end

section
/-!
The RAM windows and the read-only locations at the port (20_memory R61 to R71), and the host's step.
-/

namespace Sys2Proof.Machine

/-- A legal read whose location reads as `x` answers `x` (20_memory R62). -/
theorem hostRead_replies_of_readTarget {s : State} {off bits : Nat} {T : Target} {x : Word}
    (hT : target s.cfg off bits = some T) (hx : s.readTarget T = x) :
    (hostRead off bits s).replies = .read x false :: s.replies := by
  rw [hostRead_replies_of_target hT, hx]

/-- Settles O37: in each window the write reaches the word that the read reaches. -/
theorem ramWriteReadsBack : Obligations.RamWriteReadsBack := by
  intro s v k hb hc hk
  have hA := target_aRam s.cfg k hk
  have hB := target_bRam s.cfg k hc hk
  constructor <;> intro hwf
  · exact ⟨_, hostWrite_of_target hA (.inl hb) v, rfl,
      fun i hi => Memory.lookup_writeBytes_inside hwf _ v hi,
      fun j hj => Memory.lookup_writeBytes_outside hwf v hj,
      hostRead_replies_of_readTarget hA (memWord_view_writeBytes hwf _ v _)⟩
  · exact ⟨_, hostWrite_of_target hB (.inl hb) v, rfl,
      fun i hi => Memory.lookup_writeBytes_inside hwf _ v hi,
      fun j hj => Memory.lookup_writeBytes_outside hwf v hj,
      hostRead_replies_of_readTarget hB (memWord_view_writeBytes hwf _ v _)⟩

/-- W_RAM reads as its bytes while no TOWORDS is in flight (70_reset_and_hazards R247). -/
theorem readTarget_wRam_of_quiet {s : State} (hquiet : s.toWordsInFlight = false) (k : Nat) :
    s.readTarget (.wRam k) = memWord s.wByte (8 * k) := by
  simp [State.readTarget, hquiet]

/-- Settles O41: the value read is the word of the eight bytes, in each window. -/
theorem ramReads : Obligations.RamReads := by
  intro s k bytes hc hk
  refine ⟨memWord bytes 0, fun t ht => ?_, fun h => ?_, fun h => ?_, fun hquiet h => ?_⟩
  · rw [memWord_byte bytes 0 t ht, Nat.zero_add]
  · exact hostRead_replies_of_readTarget (target_aRam s.cfg k hk) (memWord_view_of_lookup h _)
  · exact hostRead_replies_of_readTarget (target_bRam s.cfg k hc hk) (memWord_view_of_lookup h _)
  · exact hostRead_replies_of_readTarget (target_wRam s.cfg k hc hk)
      ((readTarget_wRam_of_quiet hquiet k).trans (memWord_view_of_lookup h _))

/-- Settles O42: the shape of every read. -/
theorem readsHaveNoSideEffects : Obligations.ReadsHaveNoSideEffects := by
  intro s off bits
  obtain ⟨x, e, d, hread⟩ := hostRead_eq off bits s
  rw [hread]
  exact ⟨rfl, x, e, rfl⟩

/-- A settled location reads the same whatever was answered and drawn before (20_memory R71, R80). -/
theorem readTarget_of_settled {s : State} {T : Target} (h : s.Settled T) (rs : List Reply)
    (d : Nat) : ({ s with replies := rs, draws := d } : State).readTarget T = s.readTarget T := by
  cases T with
  | params | cmd | status | lenA | lenB | operand => rfl
  | result =>
    have hidle : s.busy = false := h
    simp [State.readTarget, hidle]
  | aRam j | bRam j => exact memWord_view_congr h _ _
  | wRam k =>
    obtain ⟨hquiet, hwritten⟩ := h
    rw [readTarget_wRam_of_quiet hquiet,
      readTarget_wRam_of_quiet (s := { s with replies := rs, draws := d }) hquiet]
    exact memWord_view_congr hwritten _ _

/-- Settles O43: a bus error answers 0, and a settled location its one value. -/
theorem readsRepeat : Obligations.ReadsRepeat := by
  intro s off bits hsettled
  cases hT : target s.cfg off bits with
  | none => exact ⟨.read 0 true, fun rs d => by simp [hostRead, hT]⟩
  | some T =>
    exact ⟨.read (s.readTarget T) false, fun rs d =>
      hostRead_replies_of_readTarget hT (readTarget_of_settled (hsettled T hT) rs d)⟩

/-- Settles O38: no read-only location is an input, and a write to one has no effect. -/
theorem readOnlyWritesIgnored : Obligations.ReadOnlyWritesIgnored := by
  intro s v off hc hoff
  obtain rfl | rfl | rfl | ⟨hlo, hhi, h8⟩ := hoff
  · exact hostWrite_of_target (target_params _) (.inr rfl) v
  · exact hostWrite_of_target (target_status _) (.inr rfl) v
  · exact hostWrite_of_target (target_result _) (.inr rfl) v
  · obtain ⟨k, rfl⟩ : ∃ k, off = 0x3000 + 8 * k := ⟨(off - 0x3000) / 8, by omega⟩
    exact hostWrite_of_target (target_wRam _ k hc (by omega)) (.inr rfl) v

/-- Settles O8: the host's move. -/
theorem stepIssuesTheStatement : Obligations.StepIssuesTheStatement :=
  fun _ _ _ _ hm => step_of_hostMoves hm

end Sys2Proof.Machine
end

section
/-!
A write made twice (20_memory R63, R71).
-/

namespace Sys2Proof.Machine

/-- `t'` is `t` with the reply `r` given, its A_RAM and B_RAM the same byte by byte. -/
def AnswersAgain (r : Reply) (t t' : State) : Prop :=
  ∃ aram bram : Memory, t' = { t with aram := aram, bram := bram, replies := r :: t.replies } ∧
    ∀ j, aram.lookup j = t.aram.lookup j ∧ bram.lookup j = t.bram.lookup j

/-- A location other than CMD, once written, is left as it is by the same write (20_memory R63). -/
theorem writeTarget_again {s t : State} {v : Word} {T : Target} {hazard : Bool} {r : Reply}
    (hT : T ≠ .cmd) (ha : s.aram.wf) (hb : s.bram.wf)
    (ht : t = { s.writeTarget v T with inputHazard := hazard }.reply r) :
    AnswersAgain r t ((t.writeTarget v T).reply r) := by
  obtain ⟨fa, fb, fo, fA, fB, hwrite, hfa, hfb, hfo, hfA, hfB⟩ := writeTarget_shape v T hT
  subst ht
  refine ⟨fA (fA s.aram), fB (fB s.bram), ?_, ?_⟩
  · simp [hwrite, State.reply, hfa, hfb, hfo]
  · simp [hwrite, hfA _ ha, hfB _ hb]

/-- A write of an input where a hazard is on record takes effect, under the policy to go on
(70_reset_and_hazards R245). -/
theorem hostWrite_of_recorded {s : State} {off bits : Nat} {T : Target}
    (hT : target s.cfg off bits = some T) (hin : T.isInput = true) (hz : s.inputHazard = true)
    (hp : s.cfg.hazardPolicy = .goOn) (v : Word) :
    hostWrite off bits v s = .next ((s.writeTarget v T).reply (.write false)) := by
  obtain ⟨_, _, _, _, _, hw⟩ := writeTarget_of_isInput s v hin
  simp [hostWrite, hT, hp, hw, hz]

/-- What the second write needs of the state the first one left. -/
theorem writeTarget_reply_keeps {s t : State} {v : Word} {T : Target} {hazard : Bool} {r : Reply}
    (ht : t = { s.writeTarget v T with inputHazard := hazard }.reply r) :
    t.cfg = s.cfg ∧ t.inputHazard = hazard ∧ t.replies = r :: s.replies ∧
      (T.isInput = true → t.busy = s.busy) := by
  obtain ⟨hcfg, -, -, -, -, -, hreplies, -⟩ := writeTarget_keeps s v T
  subst ht
  exact ⟨hcfg, rfl, congrArg (List.cons r) hreplies, writeTarget_busy_of_isInput s v⟩

/-- The same write of the state a write left answers with the same reply and changes no byte. -/
theorem hostWrite_again {s t : State} {off bits : Nat} {v : Word} (ha : s.aram.wf) (hb : s.bram.wf)
    (hcmd : target s.cfg off bits ≠ some .cmd) (hst : hostWrite off bits v s = .next t) :
    ∃ r, t.replies = r :: s.replies ∧ Answers (hostWrite off bits v t) (AnswersAgain r t) := by
  obtain ⟨hT, hw⟩ | ⟨T, -, -, -, -, hw⟩ | ⟨T, hT, -, hin, hp, hw⟩ | ⟨T, hT, hsafe, hw⟩ :=
    hostWrite_cases off bits v s <;> rw [hw] at hst
  · cases hst
    refine ⟨_, rfl, (s.reply (.write true)).reply (.write true), by simp [hostWrite, hT], ?_⟩
    exact ⟨s.aram, s.bram, rfl, fun _ => ⟨rfl, rfl⟩⟩
  · cases hst
  · have ht : t = { s.writeTarget v T with inputHazard := true }.reply (.write false) :=
      (Host.Outcome.next.inj hst).symm
    have hne : T ≠ .cmd := fun h => hcmd (h ▸ hT)
    obtain ⟨hcfg, hz, hreplies, -⟩ := writeTarget_reply_keeps ht
    rw [← hcfg] at hT hp
    exact ⟨_, hreplies, _, hostWrite_of_recorded hT hin hz hp v, writeTarget_again hne ha hb ht⟩
  · have ht : t = { s.writeTarget v T with
        inputHazard := (s.writeTarget v T).inputHazard }.reply (.write false) :=
      (Host.Outcome.next.inj hst).symm
    have hne : T ≠ .cmd := fun h => hcmd (h ▸ hT)
    obtain ⟨hcfg, -, hreplies, hbusy⟩ := writeTarget_reply_keeps ht
    have hquiet : t.busy = false ∨ T.isInput = false := by
      cases hin : T.isInput with
      | false => exact .inr rfl
      | true => rw [hbusy hin]; exact .inl (by simpa [hin] using hsafe)
    rw [← hcfg] at hT
    exact ⟨_, hreplies, _, hostWrite_of_target hT hquiet v, writeTarget_again hne ha hb ht⟩

/-- Settles O44: the second write finds the inputs and the bytes as it would leave them. -/
theorem writesAreIdempotent : Obligations.WritesAreIdempotent := by
  intro s t off bits v ha hb hcmd hst
  obtain ⟨r, hreplies, t', hw, aram, bram, rfl, hbytes⟩ := hostWrite_again ha hb hcmd hst
  exact ⟨_, hw, ⟨r, hreplies, rfl⟩, rfl, hbytes⟩

end Sys2Proof.Machine
end

section
/-!
The fields of a command word, as values (30_encoding R91), and the decoder on them: what decodes is
the encoding of a legal command (R99, R100).
-/

namespace Sys2Proof

/-- The field OP, of the word's value. -/
theorem toNat_opField (w : Word) : (opField w).toNat = w.toNat % 2 ^ 4 := by
  simp [opField]

/-- The field W, of the word's value. -/
theorem wField_eq (w : Word) : wField w = decide (w.toNat / 2 ^ 4 % 2 = 1) := by
  simp [wField, BitVec.getLsbD, Nat.testBit_eq_decide_div_mod_eq]

/-- The field U, of the word's value. -/
theorem toNat_uField (w : Word) : (uField w).toNat = w.toNat / 2 ^ 5 % 2 ^ 3 := by
  simp [uField, Nat.shiftRight_eq_div_pow]

/-- The field RSV, of the word's value: it reaches up to the top bit. -/
theorem toNat_rsvField (w : Word) : (rsvField w).toNat = w.toNat / 2 ^ 8 := by
  have hw : w.toNat / 2 ^ 8 < 2 ^ 56 := by omega
  rw [rsvField, BitVec.extractLsb'_toNat, Nat.shiftRight_eq_div_pow, Nat.mod_eq_of_lt hw]

theorem rsvField_eq_zero_iff (w : Word) : rsvField w = 0 ↔ w.toNat / 2 ^ 8 = 0 := by
  rw [← BitVec.toNat_inj, toNat_rsvField]
  rfl

/-- A U value codes an unroll factor exactly when it is the factor's code (30_encoding R94). -/
theorem Unroll.ofCode_eq_iff {c : BitVec 3} {u : Unroll} :
    Unroll.ofCode c = u ↔ c.toNat = u.code.toNat := by
  rw [BitVec.toNat_inj]
  exact ⟨fun h => h ▸ (Unroll.code_ofCode c).symm, fun h => h ▸ Unroll.ofCode_code u⟩

theorem Unroll.mem_all (u : Unroll) : u ∈ Unroll.all := by cases u <;> decide

/-- The list of legal commands is that of the well-formed ones (30_encoding R96, R100). -/
theorem Instr.mem_legal_iff {i : Instr} : i ∈ Instr.legal ↔ i.wellFormed = true := by
  have hu := Unroll.mem_all
  cases i <;> simp [Instr.legal, Instr.wellFormed, hu]

/-- A hint that may not be "full" is taken exactly where it is not (30_encoding R96). -/
theorem unlessFull_eq_ok_iff {u : Unroll} {i j : Instr} :
    unlessFull u i = .ok j ↔ u ≠ .full ∧ i = j := by
  unfold unlessFull
  split <;> simp [*]

/-- A hint that may not be "full" is rejected exactly where it is (30_encoding R96). -/
theorem unlessFull_rejects_iff {u : Unroll} {i : Instr} :
    (∃ r, unlessFull u i = .error r) ↔ u = .full := by
  unfold unlessFull
  split <;> simp [*]

theorem packFields_of_toNat {op : BitVec 4} {n : Nat} (hop : op.toNat = n) (q : Bool) (u : Unroll) :
    packFields op q u = packFields (BitVec.ofNat 4 n) q u := by
  rw [← hop, BitVec.ofNat_toNat, BitVec.setWidth_eq]

/-- Fields that decode to a command are the fields of its encoding (30_encoding R99, R100). -/
theorem encode_of_decodeFields {op : BitVec 4} {q : Bool} {u : Unroll} {i : Instr} :
    decodeFields op q u = .ok i → i.wellFormed = true ∧ encode i = packFields op q u := by
  fun_cases decodeFields op q u
  -- The combinations rejected whatever the hint, and POPCNT with a hint.
  case case1 | case6 | case9 | case11 | case12 | case14 | case16 => rintro ⟨⟩
  -- POPCNT: its U field is 0.
  case case2 hop hu hq | case3 hop hu hq =>
    rintro ⟨⟩
    rw [packFields_of_toNat hop, not_not.mp hu]
    simp_all [encode, Instr.wellFormed]
  -- The fixed-length commands: every hint is legal.
  case case7 hop hq | case8 hop hq | case10 hop hq =>
    rintro ⟨⟩
    rw [packFields_of_toNat hop]
    simp_all [encode, Instr.wellFormed]
  -- The variable-length commands: every hint but "full".
  case case4 hop hq | case5 hop hq | case13 hop hq | case15 hop hq =>
    intro h
    obtain ⟨hu, rfl⟩ := unlessFull_eq_ok_iff.mp h
    rw [packFields_of_toNat hop]
    simp_all [encode, Instr.wellFormed]

/-- A word that decodes to a command is its encoding (30_encoding R99, R100). -/
theorem encode_of_decodeWord {w : Word} {i : Instr} (h : decodeWord w = .ok i) :
    i.wellFormed = true ∧ encode i = w := by
  by_cases hrsv : rsvField w = 0
  · rw [← pack_fields w hrsv, decodeWord_pack] at h
    rw [← pack_fields w hrsv]
    exact encode_of_decodeFields h
  · rw [decodeWord_reserved w hrsv] at h
    cases h

end Sys2Proof
end

section
/-!
The command words: the table of the legal ones (30_encoding R100) and the classes of the illegal
ones (R101).
-/

namespace Sys2Proof.Machine

theorem decodeWord_eq_ok_iff {w : Word} {i : Instr} :
    decodeWord w = .ok i ↔ i.wellFormed = true ∧ encode i = w :=
  ⟨encode_of_decodeWord, fun ⟨hi, hw⟩ => hw ▸ decodeWord_encode hi⟩

/-- Settles O1: a word is its fields packed, and the decoder takes the fields apart again. -/
theorem decodeInvertsEncode : Obligations.DecodeInvertsEncode := fun _ _ => decodeWord_eq_ok_iff

/-- A row of the table of 30_encoding R100 with one word. -/
theorem decodeWord_iff_eq {i : Instr} {v : Word} (hi : i.wellFormed = true) (hv : encode i = v)
    (w : Word) : decodeWord w = .ok i ↔ w = v := by
  rw [decodeWord_eq_ok_iff, hv, eq_comm (a := v)]
  exact and_iff_right hi

/-- A row of the table of 30_encoding R100: the words of a mnemonic are the encodings of its legal
hints. -/
theorem exists_decodeWord_iff_mem {c : Unroll → Instr} {ws : List Word}
    (hws : ((Unroll.all.map c).filter Instr.wellFormed).map encode = ws) (w : Word) :
    (∃ u, decodeWord w = .ok (c u)) ↔ w ∈ ws := by
  subst hws
  simp [decodeWord_eq_ok_iff, Unroll.mem_all, and_assoc]

/-- The legal words are those that decode (30_encoding R99, R100). -/
theorem mem_map_encode_legal_iff {w : Word} :
    w ∈ Instr.legal.map encode ↔ ∃ i, decodeWord w = .ok i := by
  simp only [List.mem_map, Instr.mem_legal_iff, decodeWord_eq_ok_iff]

theorem not_illegalWord_iff {w : Word} : ¬ IllegalWord w ↔ ∃ i, decodeWord w = .ok i := by
  unfold IllegalWord
  cases decodeWord w <;> simp

/-- Two legal commands with one encoding are the same command. -/
theorem encode_inj_of_wellFormed {i j : Instr} (hi : i.wellFormed = true) (hj : j.wellFormed = true)
    (h : encode i = encode j) : i = j :=
  Except.ok.inj ((decodeWord_encode hi).symm.trans (h ▸ decodeWord_encode hj))

theorem nodup_map_encode_legal : (Instr.legal.map encode).Nodup :=
  List.Nodup.map_on
    (fun _ hi _ hj =>
      encode_inj_of_wellFormed (Instr.mem_legal_iff.mp hi) (Instr.mem_legal_iff.mp hj))
    (by decide)

/-- Settles O3, row by row of the table. -/
theorem legalWordTable : Obligations.LegalWordTable := fun w =>
  ⟨decodeWord_iff_eq rfl rfl w, decodeWord_iff_eq rfl rfl w,
    exists_decodeWord_iff_mem rfl w, exists_decodeWord_iff_mem rfl w,
    exists_decodeWord_iff_mem rfl w, exists_decodeWord_iff_mem rfl w,
    exists_decodeWord_iff_mem rfl w, exists_decodeWord_iff_mem rfl w,
    exists_decodeWord_iff_mem rfl w,
    or_iff_not_imp_left.mpr not_illegalWord_iff.mp, nodup_map_encode_legal, rfl,
    mem_map_encode_legal_iff.trans not_illegalWord_iff.symm⟩

/-- The classes (b) to (f) of 30_encoding R101, on the fields. -/
theorem illegalWord_packFields_iff (op : BitVec 4) (q : Bool) (u : Unroll) :
    IllegalWord (packFields op q u) ↔
      op.toNat = 0 ∨ 8 ≤ op.toNat ∨ (op.toNat = 1 ∧ u ≠ .k1) ∨
        ((op.toNat = 2 ∨ op.toNat = 6 ∨ op.toNat = 7) ∧ u = .full) ∨
        ((op.toNat = 3 ∨ op.toNat = 6 ∨ op.toNat = 7) ∧ q = true) ∨
        ((op.toNat = 4 ∨ op.toNat = 5) ∧ q = false) := by
  rw [IllegalWord, decodeWord_pack]
  fun_cases decodeFields op q u
  -- A POPCNT with a hint, and a wrong width.
  case case1 | case6 | case9 | case11 | case12 | case14 =>
    exact iff_of_true ⟨_, rfl⟩ (by simp [*])
  -- No such operation.
  case case16 =>
    have hop : op.toNat = 0 ∨ 8 ≤ op.toNat := by simp only [imp_false] at *; omega
    exact iff_of_true ⟨_, rfl⟩ (hop.imp_right .inl)
  -- The variable-length commands: rejected for the hint "full" alone.
  case case4 | case5 | case13 | case15 => simp [unlessFull_rejects_iff, *]
  -- The other commands are legal.
  case case2 | case3 | case7 | case8 | case10 => simp_all

/-- Settles O4: class (a) is RSV, and the other fields are computed from the word's value. -/
theorem illegalWordClasses : Obligations.IllegalWordClasses := by
  intro w
  by_cases hrsv : rsvField w = 0
  · have hclass := illegalWord_packFields_iff (opField w) (wField w) (Unroll.ofCode (uField w))
    rw [pack_fields w hrsv] at hclass
    refine Iff.trans ?_ (or_iff_right (not_not.mpr ((rsvField_eq_zero_iff w).mp hrsv))).symm
    simpa [toNat_opField, toNat_uField, wField_eq, Unroll.ofCode_eq_iff, Unroll.code] using hclass
  · exact iff_of_true ⟨_, decodeWord_reserved w hrsv⟩ (.inl (mt (rsvField_eq_zero_iff w).mpr hrsv))

/-- Settles O5: the fixed words and lines, each worked out. -/
theorem tableWordsDecode : Obligations.TableWordsDecode := by
  unfold Obligations.TableWordsDecode
  decide

end Sys2Proof.Machine
end

section
/-!
The hint of a command (30_encoding R95) and the host's POLL (R104).
-/

namespace Sys2Proof.Machine

/-- Settles O28: a command is a completion with its verdict, and no verdict reads the hint. -/
theorem unrollHintIgnored : Obligations.UnrollHintIgnored := by
  intro u v s
  simp only [exec_eq_finish, verdictOf, isToWords, and_self]

/-- A legal read answers the location's data and draws once (20_memory R62, R80). -/
theorem hostRead_of_target {s : State} {off bits : Nat} {T : Target}
    (hT : target s.cfg off bits = some T) :
    hostRead off bits s = { s with draws := s.draws + 1 }.reply (.read (s.readTarget T) false) := by
  simp [hostRead, hT]

/-- Settles O45: POLL is a read of STATUS, whose bit 0 is BUSY. -/
theorem pollReadsUntilIdle : Obligations.PollReadsUntilIdle := by
  intro s hr
  have hread := hostRead_of_target (target_status s.cfg)
  simp only [hostStmt, hr, Bool.false_eq_true, if_false, hostPoll, hread, statusWord_busy,
    State.reply, State.readTarget]

end Sys2Proof.Machine
end

section
/-!
The commands POPCNT8 and POPCNT64 (40_popcount R123, R124).
-/

namespace Sys2Proof.Machine

/-- A command whose verdict is a count, with nothing stored, completes with it (10_state R40). -/
theorem exec_counted {i : Instr} {s : State} {n : Nat} (hz : s.inputHazard = false)
    (hv : verdictOf s i = succeed n []) : Answers (exec i s) (Counted s n) :=
  ⟨_, exec_of_quiet i s hz, by rw [hv]; exact ⟨completed_complete s _, fun _ => rfl⟩⟩

/-- Settles O10: the verdict is the count of the set bits. -/
theorem popcnt8Completes : Obligations.Popcnt8Completes :=
  ⟨decodeWord_iff_eq rfl rfl, fun s hz =>
    exec_counted hz (congrArg (succeed · []) (popcount_eq_card 8 s.operand))⟩

/-- Settles O11: the verdict is the count of the set bits. -/
theorem popcnt64Completes : Obligations.Popcnt64Completes :=
  ⟨decodeWord_iff_eq rfl rfl, fun s hz =>
    exec_counted hz (congrArg (succeed · []) (popcount_eq_card 64 s.operand))⟩

end Sys2Proof.Machine
end

section
/-!
The laws of the population count and the width law of the distance (40_popcount R125).
-/

namespace Sys2Proof.Machine

theorem popcount_zero (bits : Nat) : popcount bits 0 = 0 := by
  simp [popcount_eq_card]

theorem popcount_allOnes {bits : Nat} (h : bits ≤ 64) :
    popcount bits (BitVec.ofNat 64 (2 ^ bits - 1)) = bits := by
  have hset : ∀ i ∈ Finset.range bits, (BitVec.ofNat 64 (2 ^ bits - 1)).getLsbD i = true := by
    intro i hi
    have hlt := Finset.mem_range.mp hi
    simp [BitVec.getLsbD_ofNat, Nat.testBit_two_pow_sub_one, hlt, hlt.trans_le h]
  rw [popcount_eq_card, Finset.filter_true_of_mem hset, Finset.card_range]

/-- Each position is set in exactly one of a word and its complement. -/
theorem popcount_add_popcount_not {bits : Nat} (h : bits ≤ 64) (x : Word) :
    popcount bits x + popcount bits (~~~x) = bits := by
  have hflip : ∀ i ∈ Finset.range bits, (~~~x).getLsbD i = true ↔ ¬x.getLsbD i = true := by
    intro i hi
    simp [(Finset.mem_range.mp hi).trans_le h]
  rw [popcount_eq_card, popcount_eq_card, Finset.filter_congr hflip,
    Finset.card_filter_add_card_filter_not, Finset.card_range]

/-- The count of m + n bits is that of the low m and that of the n above them. -/
theorem popcount_add (m n : Nat) (x : Word) :
    popcount (m + n) x = popcount m x + popcount n (x >>> m) := by
  simp only [popcount, sumBelow_add, BitVec.getLsbD_ushiftRight]

/-- Byte t of a word counted by itself. -/
theorem popcount_extractLsb' (x : Word) (t : Nat) :
    popcount 8 ((x.extractLsb' (8 * t) 8).setWidth 64) = popcount 8 (x >>> (8 * t)) :=
  popcount_congr _ _ _ fun i hi => by
    simp [hi, show i < 64 by omega]

/-- The count of n bytes is the sum of the counts of the bytes. -/
theorem popcount_bytes (n : Nat) (x : Word) :
    popcount (8 * n) x =
      ∑ t ∈ Finset.range n, popcount 8 ((x.extractLsb' (8 * t) 8).setWidth 64) := by
  induction n with
  | zero => rfl
  | succ n ih => rw [Nat.mul_succ, popcount_add, ih, Finset.sum_range_succ, popcount_extractLsb']

/-- Bit p of the XOR of two elements is set where the signatures differ (00_scope R11). -/
theorem xorpop_eq_sumBelow_sigBit (w : Width) (a b : Nat → Byte) (i : Nat) :
    xorpop w (elem w a i) (elem w b i) =
      sumBelow (fun p =>
        (sigBit a (i * w.bits + p) ^^ sigBit b (i * w.bits + p)).toNat) w.bits :=
  sumBelow_congr _ _ _ fun p hp => by
    rw [BitVec.getLsbD_xor, elem_getLsbD w a i p hp, elem_getLsbD w b i p hp]

/-- The distance counts the bits at which the signatures differ, whatever the elements' width
(41_distance_variable R142). -/
theorem distance_eq_sumBelow_sigBit (w : Width) (a b : Nat → Byte) (n : Nat) :
    distance w a b n = sumBelow (fun p => (sigBit a p ^^ sigBit b p).toNat) (n * w.bits) := by
  induction n with
  | zero => rw [Nat.zero_mul]; rfl
  | succ n ih => rw [Nat.succ_mul, sumBelow_add, ← ih, ← xorpop_eq_sumBelow_sigBit]; rfl

/-- The width law: n quadwords and the same 8n bytes are the same bits. -/
theorem distance_quad_eq_byte (a b : Nat → Byte) (n : Nat) :
    distance .quad a b n = distance .byte a b (8 * n) := by
  rw [distance_eq_sumBelow_sigBit, distance_eq_sumBelow_sigBit,
    show n * Width.quad.bits = 8 * n * Width.byte.bits by simp only [Width.bits]; omega]

theorem Width.bits_le (w : Width) : w.bits ≤ 64 := by cases w <;> decide

/-- Settles O12, law by law. -/
theorem popcountLaws : Obligations.PopcountLaws :=
  ⟨fun w x => ⟨popcount_le _ x, popcount_zero _, popcount_allOnes w.bits_le,
      popcount_add_popcount_not w.bits_le x⟩,
    popcount_bytes 8, distance_quad_eq_byte⟩

end Sys2Proof.Machine
end

section
/-!
The population count tree: it holds, after each level, the counts of the fields of its input side by side
(40_popcount R122).
-/

namespace Sys2Proof.Machine

/-- The counts of the n lowest fields of d bits of x, each in its own field of d bits. -/
def fieldCounts (d : Nat) : Nat → Word → Nat
  | 0, _ => 0
  | n + 1, x => popcount d x + 2 ^ d * fieldCounts d n (x >>> d)

/-- The low d bits of each of n fields of 2d bits: the masks of 40_popcount R122. -/
def lowHalves (d : Nat) : Nat → Nat
  | 0 => 0
  | n + 1 => (2 ^ d - 1) + 2 ^ (2 * d) * lowHalves d n

theorem popcount_one (x : Word) : popcount 1 x = x.toNat % 2 := by
  have h0 : (x.getLsbD 0).toNat = x.toNat % 2 := by
    rw [BitVec.getLsbD, Nat.toNat_testBit, pow_zero, Nat.div_one]
  simpa [popcount, sumBelow] using h0

/-- Fields of one bit hold the bits themselves. -/
theorem fieldCounts_one (n : Nat) (x : Word) : fieldCounts 1 n x = x.toNat % 2 ^ n := by
  induction n generalizing x with
  | zero => simp [fieldCounts, Nat.mod_one]
  | succ n ih =>
    rw [fieldCounts, ih, popcount_one, pow_one, pow_succ', Nat.mod_mul, BitVec.toNat_ushiftRight,
      Nat.shiftRight_one]

theorem popcount_lt_two_pow (d : Nat) (x : Word) : popcount d x < 2 ^ d :=
  (popcount_le d x).trans_lt Nat.lt_two_pow_self

/-- A level adds the two fields of d bits of one field of 2d bits. -/
theorem natLevel_pair {d p q : Nat} (hp : p < 2 ^ d) (hq : q < 2 ^ d) :
    natLevel (2 ^ d - 1) d (p + 2 ^ d * q) = p + q := by
  have hshift : (p + 2 ^ d * q) >>> d = q := by
    rw [Nat.shiftRight_eq_div_pow, Nat.add_mul_div_left _ _ (by positivity),
      Nat.div_eq_of_lt hp, Nat.zero_add]
  rw [natLevel, hshift, Nat.and_two_pow_sub_one_eq_mod, Nat.and_two_pow_sub_one_eq_mod,
    Nat.add_mul_mod_self_left, Nat.mod_eq_of_lt hp, Nat.mod_eq_of_lt hq]

/-- A level turns the counts of fields of d bits into those of fields of 2d bits. -/
theorem natLevel_fieldCounts (d n : Nat) (x : Word) :
    natLevel (lowHalves d n) d (fieldCounts d (2 * n) x) = fieldCounts (2 * d) n x := by
  induction n generalizing x with
  | zero => simp [natLevel, lowHalves, fieldCounts]
  | succ n ih =>
    have hp := popcount_lt_two_pow d x
    have hq := popcount_lt_two_pow d (x >>> d)
    have hsplit : fieldCounts d (2 * (n + 1)) x =
        (popcount d x + 2 ^ d * popcount d (x >>> d)) +
          2 ^ (2 * d) * fieldCounts d (2 * n) (x >>> (2 * d)) := by
      rw [Nat.mul_succ, fieldCounts, fieldCounts, ← BitVec.shiftRight_add, ← two_mul d]
      ring
    have hlow : popcount d x + 2 ^ d * popcount d (x >>> d) < 2 ^ (2 * d) := by
      rw [two_mul, pow_add]; nlinarith
    have hmask : 2 ^ d - 1 < 2 ^ (2 * d - d) := by
      rw [two_mul, Nat.add_sub_cancel]; exact Nat.sub_one_lt (by positivity)
    rw [hsplit, lowHalves, natLevel_split _ _ _ _ _ _ hlow (by omega) hmask, natLevel_pair hp hq,
      ih, fieldCounts, two_mul d, popcount_add]

/-- A level of the tree, for a mask whose doubled value fits 64 bits. -/
theorem treeLevel_fieldCounts {d n : Nat} {mask x y : Word} (hmask : mask.toNat = lowHalves d n)
    (hfit : 2 * mask.toNat < 2 ^ 64) (hy : y.toNat = fieldCounts d (2 * n) x) :
    (treeLevel mask d y).toNat = fieldCounts (2 * d) n x := by
  rw [treeLevel_toNat _ _ _ ((natLevel_le _ _ _).trans_lt hfit), hmask, hy, natLevel_fieldCounts]

/-- `s4`: the count of each byte in its own byte (40_popcount R122). -/
theorem treeBytes_toNat (x : Word) : (treeBytes x).toNat = fieldCounts 8 8 x := by
  have h0 : x.toNat = fieldCounts 1 64 x := by
    rw [fieldCounts_one, Nat.mod_eq_of_lt x.isLt]
  have h1 := treeLevel_fieldCounts (mask := maskM1) (n := 32) (by decide) (by decide) h0
  have h2 := treeLevel_fieldCounts (mask := maskM2) (n := 16) (by decide) (by decide) h1
  exact treeLevel_fieldCounts (mask := maskM4) (n := 8) (by decide) (by decide) h2

theorem popcountTree_quad (x : Word) : (popcountTree x true).toNat = popcount 64 x := by
  have h3 := treeLevel_fieldCounts (mask := maskM8) (n := 4) (by decide) (by decide)
    (treeBytes_toNat x)
  have h4 := treeLevel_fieldCounts (mask := maskM16) (n := 2) (by decide) (by decide) h3
  have h5 := treeLevel_fieldCounts (mask := maskM32) (n := 1) (by decide) (by decide) h4
  have hcount : fieldCounts 64 1 x = popcount 64 x := by simp [fieldCounts]
  have hle := popcount_le 64 x
  rw [popcountTree, if_pos rfl, BitVec.toNat_setWidth, h5, hcount]
  omega

theorem popcountTree_byte (x : Word) : (popcountTree x false).toNat = popcount 8 x := by
  have hle := popcount_le 8 x
  rw [popcountTree, if_neg Bool.false_ne_true, BitVec.toNat_setWidth, BitVec.toNat_setWidth,
    treeBytes_toNat, fieldCounts]
  omega

/-- Settles O13, select by select; the masks are the spec's informative structure (log 20). -/
theorem popcountTreeCounts : Obligations.PopcountTreeCounts := fun x =>
  ⟨popcountTree_quad x, popcountTree_byte x⟩

end Sys2Proof.Machine
end

section
/-!
The distance is the Hamming distance of the signatures (41_distance_variable R142), and the laws it
has as one (R149).
-/

namespace Sys2Proof.Machine

/-- The distance counts the positions at which the signatures differ. -/
theorem distance_eq_hamming (w : Width) (a b : Nat → Byte) (n : Nat) :
    distance w a b n = hamming a b (n * w.bits) := by
  have hbit : ∀ x y : Bool, (x ^^ y).toNat = if x ≠ y then 1 else 0 := by decide
  simp only [distance_eq_sumBelow_sigBit, sumBelow_eq_sum, hbit, hamming, Finset.card_filter]

/-- Settles O14: the sum and the empty case are the definition, the rest is bit by bit. -/
theorem distanceIsHammingDistance : Obligations.DistanceIsHammingDistance := fun w a b n =>
  ⟨sumBelow_eq_sum _ n, rfl, distance_eq_hamming w a b n⟩

/-- The model's Hamming distance is Mathlib's, on the signatures' bits. -/
theorem hamming_eq_hammingDist (a b : Nat → Byte) (n : Nat) :
    hamming a b n =
      hammingDist (fun p : Fin n => sigBit a p) (fun p : Fin n => sigBit b p) := by
  rw [hamming, hammingDist, Finset.card_filter, Finset.card_filter, Finset.sum_range]

theorem hamming_comm (a b : Nat → Byte) (n : Nat) : hamming a b n = hamming b a n := by
  simp only [hamming_eq_hammingDist, hammingDist_comm]

theorem hamming_self (a : Nat → Byte) (n : Nat) : hamming a a n = 0 := by
  rw [hamming_eq_hammingDist, hammingDist_self]

theorem hamming_triangle (a b c : Nat → Byte) (n : Nat) :
    hamming a c n ≤ hamming a b n + hamming b c n := by
  simpa only [hamming_eq_hammingDist] using hammingDist_triangle _ _ _

/-- A signature differs from its complement at every position. -/
theorem hamming_not (a : Nat → Byte) (n : Nat) : hamming a (fun j => ~~~a j) n = n := by
  have hdiffer : ∀ p ∈ Finset.range n, sigBit a p ≠ sigBit (fun j => ~~~a j) p := by
    intro p _
    simp [sigBit, Nat.mod_lt]
  rw [hamming, Finset.filter_true_of_mem hdiffer, Finset.card_range]

theorem distance_comm (w : Width) (a b : Nat → Byte) (n : Nat) :
    distance w a b n = distance w b a n := by
  rw [distance_eq_hamming, hamming_comm, ← distance_eq_hamming]

theorem distance_eq_zero_of_eq (w : Width) {a b : Nat → Byte} {n : Nat}
    (h : ∀ j < n * w.bytes, a j = b j) : distance w a b n = 0 := by
  rw [distance_congr w a b a a n (fun _ _ => rfl) fun j hj => (h j hj).symm, distance_eq_hamming,
    hamming_self]

theorem distance_eq_bits_of_eq_not (w : Width) {a b : Nat → Byte} {n : Nat}
    (h : ∀ j < n * w.bytes, b j = ~~~a j) : distance w a b n = n * w.bits := by
  rw [distance_congr w a b a (fun j => ~~~a j) n (fun _ _ => rfl) h, distance_eq_hamming,
    hamming_not]

theorem distance_triangle (w : Width) (a b c : Nat → Byte) (n : Nat) :
    distance w a c n ≤ distance w a b n + distance w b c n := by
  simpa only [distance_eq_hamming] using hamming_triangle a b c _

/-- Settles O22, law by law. -/
theorem distanceLaws : Obligations.DistanceLaws := fun w a b c n =>
  ⟨distance_comm w a b n, distance_eq_zero_of_eq w, distance_eq_bits_of_eq_not w,
    distance_triangle w a b c n, distance_quad_eq_byte a b n⟩

end Sys2Proof.Machine
end

section
/-!
The variable-length commands DIST.B and DIST.Q (41_distance_variable R146, R147), and the range of a
count (R148).
-/

namespace Sys2Proof.Machine

/-- A command whose verdict is an error completes with it (60_exceptions R212). -/
theorem exec_raised {i : Instr} {s : State} {e : ErrCode} {opnd : Side} (hz : s.inputHazard = false)
    (hv : verdictOf s i = raise e opnd) : Answers (exec i s) (Raised s e opnd) :=
  ⟨_, exec_of_quiet i s hz, by rw [hv]; exact ⟨completed_complete s _, fun _ => rfl⟩⟩

theorem distVerdict_of_capacity_lt_la {w : Width} {s : State} (ha : capacity w s < s.la) :
    distVerdict w s = raise .capacity .a :=
  if_pos ha

theorem distVerdict_of_capacity_lt_lb {w : Width} {s : State} (ha : s.la ≤ capacity w s)
    (hb : capacity w s < s.lb) : distVerdict w s = raise .capacity .b :=
  (if_neg ha.not_gt).trans (if_pos hb)

theorem distVerdict_of_la_ne_lb {w : Width} {s : State} (ha : s.la ≤ capacity w s)
    (hb : s.lb ≤ capacity w s) (hne : s.la ≠ s.lb) : distVerdict w s = raise .lengthMismatch .a :=
  (if_neg ha.not_gt).trans ((if_neg hb.not_gt).trans (if_pos hne))

theorem distVerdict_of_lb_eq_la {w : Width} {s : State} (ha : s.la ≤ capacity w s)
    (heq : s.lb = s.la) :
    distVerdict w s = succeed (hamming s.aByte s.bByte (w.bits * s.la)) [] := by
  have hb : ¬s.lb > capacity w s := by omega
  rw [distVerdict, if_neg ha.not_gt, if_neg hb, if_neg (not_not.mpr heq.symm), distance_eq_hamming,
    Nat.mul_comm]

/-- The completions of a command whose verdict is the variable-length distance of width w: one for
each check of 41_distance_variable R146, R147. -/
theorem exec_of_distVerdict {w : Width} {i : Instr} {s : State} (hz : s.inputHazard = false)
    (hv : verdictOf s i = distVerdict w s) :
    (s.la ≤ capacity w s → s.lb = s.la →
      Answers (exec i s) (Counted s (hamming s.aByte s.bByte (w.bits * s.la)))) ∧
    (capacity w s < s.la → Answers (exec i s) (Raised s .capacity .a)) ∧
    (s.la ≤ capacity w s → capacity w s < s.lb → Answers (exec i s) (Raised s .capacity .b)) ∧
    (s.la ≤ capacity w s → s.lb ≤ capacity w s → s.la ≠ s.lb →
      Answers (exec i s) (Raised s .lengthMismatch .a)) :=
  ⟨fun ha heq => exec_counted hz (hv.trans (distVerdict_of_lb_eq_la ha heq)),
    fun ha => exec_raised hz (hv.trans (distVerdict_of_capacity_lt_la ha)),
    fun ha hb => exec_raised hz (hv.trans (distVerdict_of_capacity_lt_lb ha hb)),
    fun ha hb hne => exec_raised hz (hv.trans (distVerdict_of_la_ne_lb ha hb hne))⟩

/-- The capacity in bytes is MAX_BYTES itself (41_distance_variable R145). -/
theorem capacity_byte (s : State) : capacity .byte s = s.cfg.maxBytes := Nat.div_one _

/-- Settles O15: the checks of the distance over a capacity of MAX_BYTES bytes. -/
theorem distBCompletes : Obligations.DistBCompletes :=
  ⟨exists_decodeWord_iff_mem rfl, fun u s hz => by
    have hdist := exec_of_distVerdict (w := .byte) (i := .distB u) hz rfl
    simpa only [capacity_byte, Width.bits] using hdist⟩

/-- Settles O16: the checks of the distance over a capacity of MAX_BYTES/8 quadwords. -/
theorem distQCompletes : Obligations.DistQCompletes :=
  ⟨exists_decodeWord_iff_mem rfl, fun u _ hz =>
    exec_of_distVerdict (w := .quad) (i := .distQ u) hz rfl⟩

/-- Settles O29: the verdict's count is within the capacity, which is at most 4096 bytes. -/
theorem resultWithinRange : Obligations.ResultWithinRange := fun i s hz hc =>
  ⟨_, exec_of_quiet i s hz, fun he =>
    have hcount := (verdictOf_sound s i hc).count he
    ⟨hcount, hcount.trans (Nat.mul_le_mul_left 8 hc.2.2)⟩⟩

end Sys2Proof.Machine
end

section
/-!
The canonical unrolled algorithm (41_distance_variable R144) and the lane pipeline (R141) compute the
distance, for every stride and every number of lanes.
-/

namespace Sys2Proof.Machine

/-- The main loop, entered at element i with the distance of the first i, ends with the distance of
all n, when the elements left are whole strides. -/
theorem strideLoop_eq_distance {k n : Nat} (w : Width) (a b : Nat → Byte) :
    ∀ {fuel i : Nat}, i ≤ n → k ∣ n - i → n - i ≤ fuel →
      strideLoop k w a b n fuel i (distance w a b i) = distance w a b n
  | 0, i, hi, _, hfuel => by rw [strideLoop, show i = n by omega]
  | fuel + 1, i, hi, hk, hfuel => by
    rw [strideLoop]
    split
    case isFalse hlt => rw [show i = n by omega]
    case isTrue hlt =>
      have hle : k ≤ n - i := Nat.le_of_dvd (by omega) hk
      have hpos : 0 < k := Nat.pos_of_dvd_of_pos hk (by omega)
      have hrest : k ∣ n - (i + k) := by
        rw [← Nat.sub_sub]; exact Nat.dvd_sub hk dvd_rfl
      rw [← distance_add]
      exact strideLoop_eq_distance w a b (by omega) hrest (by omega)

/-- The canonical algorithm gives the distance for every stride, 0 included: then all elements are
remainder. -/
theorem canonical_eq_distance (k : Nat) (w : Width) (a b : Nat → Byte) (n : Nat) :
    canonical k w a b n = distance w a b n :=
  strideLoop_eq_distance w a b (Nat.mod_le n k) (Nat.dvd_sub_mod n) (Nat.sub_le n _)

/-- Settles O23: no stride an unroll factor gives matters. -/
theorem unrolledAlgorithmGivesTheDistance : Obligations.UnrolledAlgorithmGivesTheDistance :=
  fun u w a b n => canonical_eq_distance (strideOf u n) w a b n

theorem distance_mono (w : Width) (a b : Nat → Byte) {m n : Nat} (h : m ≤ n) :
    distance w a b m ≤ distance w a b n := by
  obtain ⟨d, rfl⟩ := Nat.exists_eq_add_of_le h
  rw [distance_add]
  exact Nat.le_add_right _ _

/-- A beat adds the pairs it takes of those below n (41_distance_variable R141). -/
theorem distance_min_add_beat (w : Width) (a b : Nat → Byte) (n i lanes : Nat) :
    distance w a b (min i n) + beat lanes w a b n i = distance w a b (min (i + lanes) n) := by
  induction lanes with
  | zero => rfl
  | succ lanes ih =>
    rw [beat, sumBelow, ← Nat.add_assoc, ← beat, ih, ← Nat.add_assoc]
    split
    case isTrue h => rw [min_eq_left h.le, min_eq_left h]; rfl
    case isFalse h => rw [min_eq_right (not_lt.mp h), min_eq_right (by omega), Nat.add_zero]

/-- An accumulator wide enough for the distance of all n elements holds, after m beats, that of the
elements taken. -/
theorem pipelineAcc_eq_distance_min {width n : Nat} {w : Width} {a b : Nat → Byte} (lanes m : Nat)
    (hfit : distance w a b n < 2 ^ width) :
    pipelineAcc lanes width w a b n m = distance w a b (min (m * lanes) n) := by
  induction m with
  | zero => rw [Nat.zero_mul, Nat.zero_min]; rfl
  | succ m ih =>
    rw [pipelineAcc, ih, distance_min_add_beat, ← Nat.succ_mul]
    exact Nat.mod_eq_of_lt ((distance_mono w a b (min_le_right _ _)).trans_lt hfit)

/-- The width of ACC holds every count a capacity allows (41_distance_variable R141, R148). -/
theorem lt_two_pow_accBits {maxBytes m : Nat} (h : m ≤ 8 * maxBytes) : m < 2 ^ accBits maxBytes :=
  Nat.lt_of_lt_of_le (Nat.lt_succ_of_le h) (Nat.le_pow_clog Nat.one_lt_two _)

theorem Width.bits_eq (w : Width) : w.bits = 8 * w.bytes := by cases w <;> rfl

/-- Settles O24: ACC never wraps, and the beats take every pair. -/
theorem lanePipelineGivesTheDistance : Obligations.LanePipelineGivesTheDistance := by
  intro c lanes w a b n beats _ _ hn hbeats
  have hle : distance w a b n ≤ 8 * c.maxBytes :=
    calc distance w a b n
      _ ≤ n * w.bits := distance_le w a b n
      _ = 8 * (n * w.bytes) := by rw [w.bits_eq, Nat.mul_left_comm]
      _ ≤ 8 * c.maxBytes := Nat.mul_le_mul_left 8 hn
  rw [pipelineAcc_eq_distance_min lanes beats (lt_two_pow_accBits hle), min_eq_right hbeats]

end Sys2Proof.Machine
end

section
/-!
The fixed-length commands DIST32B, DIST4Q and DIST8Q (42_distance_fixed R171 to R173), and their agreement
with the variable-length ones on the same RAM contents (R174).
-/

namespace Sys2Proof.Machine

/-- The verdict of DIST32B is the Hamming distance of 256 bits (42_distance_fixed R171). -/
theorem verdictOf_dist32B (u : Unroll) (s : State) :
    verdictOf s (.dist32B u) = succeed (hamming s.aByte s.bByte 256) [] :=
  congrArg (succeed · []) (distance_eq_hamming .byte s.aByte s.bByte 32)

/-- The verdict of DIST4Q is that of DIST32B (42_distance_fixed R172, R174). -/
theorem verdictOf_dist4Q (u : Unroll) (s : State) :
    verdictOf s (.dist4Q u) = succeed (hamming s.aByte s.bByte 256) [] :=
  congrArg (succeed · []) (distance_eq_hamming .quad s.aByte s.bByte 4)

/-- The verdict of DIST8Q is the Hamming distance of 512 bits (42_distance_fixed R173). -/
theorem verdictOf_dist8Q (u : Unroll) (s : State) :
    verdictOf s (.dist8Q u) = succeed (hamming s.aByte s.bByte 512) [] :=
  congrArg (succeed · []) (distance_eq_hamming .quad s.aByte s.bByte 8)

/-- Settles O17: the verdict is a count, whatever LEN_A and LEN_B hold. -/
theorem dist32BCompletes : Obligations.Dist32BCompletes :=
  ⟨exists_decodeWord_iff_mem rfl, fun u s hz => exec_counted hz (verdictOf_dist32B u s)⟩

/-- Settles O18: the verdict is a count, whatever LEN_A and LEN_B hold. -/
theorem dist4QCompletes : Obligations.Dist4QCompletes :=
  ⟨exists_decodeWord_iff_mem rfl, fun u s hz => exec_counted hz (verdictOf_dist4Q u s)⟩

/-- Settles O19: the verdict is a count, whatever LEN_A and LEN_B hold. -/
theorem dist8QCompletes : Obligations.Dist8QCompletes :=
  ⟨exists_decodeWord_iff_mem rfl, fun u s hz => exec_counted hz (verdictOf_dist8Q u s)⟩

/-- n elements are within cap_w where their bytes are within MAX_BYTES (41_distance_variable R145). -/
theorem le_capacity_iff {w : Width} {s : State} {n : Nat} :
    n ≤ capacity w s ↔ n * w.bytes ≤ s.cfg.maxBytes :=
  Nat.le_div_iff_mul_le (by cases w <;> decide)

/-- A length within a legal capacity fits LEN_A and LEN_B (00_scope R8, 10_state R30). -/
theorem la_withLen {s : State} {n : Nat} (hc : s.cfg.Legal) (hn : n ≤ s.cfg.maxBytes) :
    (s.withLen n).la = n := by
  obtain ⟨-, -, hmax⟩ := hc
  exact Nat.mod_eq_of_lt (show n < 2 ^ 32 by omega)

/-- With LEN_A = LEN_B = n within the capacity, the variable-length distance is the Hamming distance of
the RAMs' first n elements (41_distance_variable R146, R147). -/
theorem distVerdict_withLen {w : Width} {s : State} {n : Nat} (hc : s.cfg.Legal)
    (hn : n * w.bytes ≤ s.cfg.maxBytes) :
    distVerdict w (s.withLen n) = succeed (hamming s.aByte s.bByte (w.bits * n)) [] := by
  have hcap : n ≤ capacity w s := le_capacity_iff.mpr hn
  have hla : (s.withLen n).la = n := la_withLen hc (hcap.trans (Nat.div_le_self _ _))
  have hdist : distVerdict w (s.withLen n) =
      succeed (hamming s.aByte s.bByte (w.bits * (s.withLen n).la)) [] :=
    distVerdict_of_lb_eq_la (hla.trans_le hcap) rfl
  rwa [hla] at hdist

/-- A command without an input hazard completes with its verdict (10_state R40). -/
theorem exec_of_verdictOf {i : Instr} {s : State} {v : Verdict} (hz : s.inputHazard = false)
    (hv : verdictOf s i = v) : exec i s = .next (s.complete v) :=
  hv ▸ exec_of_quiet i s hz

/-- Settles O25: the verdicts of the commands compared are one count. The bytes need not be written:
the runs start from one state, so they draw the same free values. -/
theorem fixedAgreesWithVariable : Obligations.FixedAgreesWithVariable := by
  intro s u v hz hc _ _
  have hvar (w : Width) (n : Nat) (hn : n * w.bytes ≤ 64) :
      distVerdict w (s.withLen n) = succeed (hamming s.aByte s.bByte (w.bits * n)) [] :=
    distVerdict_withLen hc (hn.trans hc.2.1)
  exact ⟨_, _, _, _, _, _, _,
    exec_of_verdictOf hz (verdictOf_dist32B u s),
    exec_of_verdictOf hz (verdictOf_dist4Q u s),
    exec_of_verdictOf hz (verdictOf_dist8Q u s),
    exec_of_verdictOf hz (hvar .byte 32 (by decide)),
    exec_of_verdictOf hz (hvar .quad 4 (by decide)),
    exec_of_verdictOf hz (hvar .quad 8 (by decide)),
    exec_of_verdictOf hz (hvar .byte 64 (by decide)),
    rfl, rfl, rfl, rfl, rfl, rfl, rfl, rfl, rfl, rfl, rfl, rfl⟩

end Sys2Proof.Machine
end

section
/-!
The width conversion: DISTB2Q (43_width_conversion R193), TOWORDS (R192), and the agreement of the bridged
distance with DIST.B and DIST.Q on the same RAM contents (R194).
-/

namespace Sys2Proof.Machine

theorem bridgeVerdict_of_maxBytes_lt_la {s : State} (ha : s.cfg.maxBytes < s.la) :
    bridgeVerdict s = raise .capacity .a :=
  if_pos ha

theorem bridgeVerdict_of_maxBytes_lt_lb {s : State} (ha : s.la ≤ s.cfg.maxBytes)
    (hb : s.cfg.maxBytes < s.lb) : bridgeVerdict s = raise .capacity .b :=
  (if_neg ha.not_gt).trans (if_pos hb)

/-- With both lengths within MAX_BYTES the checks left are those of the lengths themselves
(43_width_conversion R193). -/
theorem bridgeVerdict_of_le_maxBytes {s : State} (ha : s.la ≤ s.cfg.maxBytes)
    (hb : s.lb ≤ s.cfg.maxBytes) :
    bridgeVerdict s =
      if s.la % 8 ≠ 0 then raise .invalidLength .a
      else if s.lb % 8 ≠ 0 then raise .invalidLength .b
      else if s.la ≠ s.lb then raise .lengthMismatch .a
      else succeed (distance .quad s.aByte s.bByte (s.la / 8)) [] :=
  (if_neg ha.not_gt).trans (if_neg hb.not_gt)

theorem bridgeVerdict_of_la_mod_ne {s : State} (ha : s.la ≤ s.cfg.maxBytes)
    (hb : s.lb ≤ s.cfg.maxBytes) (ha8 : s.la % 8 ≠ 0) :
    bridgeVerdict s = raise .invalidLength .a :=
  (bridgeVerdict_of_le_maxBytes ha hb).trans (if_pos ha8)

theorem bridgeVerdict_of_lb_mod_ne {s : State} (ha : s.la ≤ s.cfg.maxBytes)
    (hb : s.lb ≤ s.cfg.maxBytes) (ha8 : s.la % 8 = 0) (hb8 : s.lb % 8 ≠ 0) :
    bridgeVerdict s = raise .invalidLength .b := by
  rw [bridgeVerdict_of_le_maxBytes ha hb, if_neg (not_not.mpr ha8), if_pos hb8]

theorem bridgeVerdict_of_la_ne_lb {s : State} (ha : s.la ≤ s.cfg.maxBytes)
    (hb : s.lb ≤ s.cfg.maxBytes) (ha8 : s.la % 8 = 0) (hb8 : s.lb % 8 = 0) (hne : s.la ≠ s.lb) :
    bridgeVerdict s = raise .lengthMismatch .a := by
  rw [bridgeVerdict_of_le_maxBytes ha hb, if_neg (not_not.mpr ha8), if_neg (not_not.mpr hb8),
    if_pos hne]

/-- The distance of the converted words is the Hamming distance of the bytes they are made of
(43_width_conversion R190, R193). -/
theorem bridgeVerdict_of_lb_eq_la {s : State} (ha : s.la ≤ s.cfg.maxBytes) (ha8 : s.la % 8 = 0)
    (heq : s.lb = s.la) : bridgeVerdict s = succeed (hamming s.aByte s.bByte (8 * s.la)) [] := by
  have hbits : s.la / 8 * Width.quad.bits = 8 * s.la := by simp only [Width.bits]; omega
  rw [bridgeVerdict_of_le_maxBytes ha (heq.trans_le ha), heq, if_neg (not_not.mpr ha8),
    if_neg (not_not.mpr ha8), if_neg (not_not.mpr rfl), distance_eq_hamming, hbits]

/-- Settles O20: the six branches of the verdict, in the order of 43_width_conversion R193. -/
theorem distB2QCompletes : Obligations.DistB2QCompletes :=
  ⟨exists_decodeWord_iff_mem rfl, fun _ _ hz =>
    ⟨fun ha ha8 heq => exec_counted hz (bridgeVerdict_of_lb_eq_la ha ha8 heq),
      fun ha => exec_raised hz (bridgeVerdict_of_maxBytes_lt_la ha),
      fun ha hb => exec_raised hz (bridgeVerdict_of_maxBytes_lt_lb ha hb),
      fun ha hb ha8 => exec_raised hz (bridgeVerdict_of_la_mod_ne ha hb ha8),
      fun ha hb ha8 hb8 => exec_raised hz (bridgeVerdict_of_lb_mod_ne ha hb ha8 hb8),
      fun ha hb ha8 hb8 hne => exec_raised hz (bridgeVerdict_of_la_ne_lb ha hb ha8 hb8 hne)⟩⟩

theorem convertVerdict_of_maxBytes_lt_la {s : State} (ha : s.cfg.maxBytes < s.la) :
    convertVerdict s = raise .capacity .a :=
  if_pos ha

theorem convertVerdict_of_la_mod_ne {s : State} (ha : s.la ≤ s.cfg.maxBytes)
    (ha8 : s.la % 8 ≠ 0) : convertVerdict s = raise .invalidLength .a :=
  (if_neg ha.not_gt).trans (if_pos ha8)

theorem convertVerdict_of_la_mod_eq {s : State} (ha : s.la ≤ s.cfg.maxBytes)
    (ha8 : s.la % 8 = 0) :
    convertVerdict s = succeed (s.la / 8) (wordWrites s.aByte (s.la / 8)) :=
  (if_neg ha.not_gt).trans (if_neg (not_not.mpr ha8))

/-- A conversion of n words copies the first 8n bytes, byte for byte (43_width_conversion R190). -/
theorem Memory.lookup_wordWrites_inside {m : Memory} (hwf : m.wf) (ram : Nat → Byte) {n i : Nat}
    (hi : i < 8 * n) : (m.writeWords (wordWrites ram n)).lookup i = some (ram i) := by
  rw [Memory.lookup_wordWrites m ram n i hwf, if_pos hi, toWord,
    memWord_byte ram _ _ (Nat.mod_lt i (by decide)), Nat.div_add_mod]

/-- A conversion of n words changes no byte past them (43_width_conversion R192). -/
theorem Memory.lookup_wordWrites_outside {m : Memory} (hwf : m.wf) (ram : Nat → Byte) {n i : Nat}
    (hi : 8 * n ≤ i) : (m.writeWords (wordWrites ram n)).lookup i = m.lookup i :=
  (Memory.lookup_wordWrites m ram n i hwf).trans (if_neg hi.not_gt)

/-- A converted word reads as the word of the bytes it is made of, whatever the free values. -/
theorem memWord_view_wordWrites {m : Memory} (hwf : m.wf) (ram : Nat → Byte) {n k : Nat}
    (hk : k < n) (free : Nat → Byte) :
    memWord ((m.writeWords (wordWrites ram n)).view free) (8 * k) = memWord ram (8 * k) :=
  toWord_congr fun _ ht =>
    Memory.view_of_lookup _ free _ _ (Memory.lookup_wordWrites_inside hwf ram (by omega))

/-- Settles O21: the three branches of the verdict; in the first, W_RAM is read back at each byte. -/
theorem toWordsCompletes : Obligations.ToWordsCompletes :=
  ⟨exists_decodeWord_iff_mem rfl, fun _ s hz hwf =>
    ⟨fun ha ha8 => ⟨_, exec_of_verdictOf hz (convertVerdict_of_la_mod_eq ha ha8),
        completed_complete s _,
        fun _ hk => memWord_view_wordWrites hwf s.aByte hk,
        fun _ hj => Memory.lookup_wordWrites_outside hwf s.aByte (by omega)⟩,
      fun ha => exec_raised hz (convertVerdict_of_maxBytes_lt_la ha),
      fun ha ha8 => exec_raised hz (convertVerdict_of_la_mod_ne ha ha8)⟩⟩

/-- With LEN_A = LEN_B = n a whole number of words within the capacity, the bridged distance is the
Hamming distance of the RAMs' first n bytes (43_width_conversion R193). -/
theorem bridgeVerdict_withLen {s : State} {n : Nat} (hc : s.cfg.Legal) (hn : n ≤ s.cfg.maxBytes)
    (hn8 : n % 8 = 0) :
    bridgeVerdict (s.withLen n) = succeed (hamming s.aByte s.bByte (8 * n)) [] := by
  have hla : (s.withLen n).la = n := la_withLen hc hn
  have hbridge : bridgeVerdict (s.withLen n) =
      succeed (hamming s.aByte s.bByte (8 * (s.withLen n).la)) [] :=
    bridgeVerdict_of_lb_eq_la (hla.trans_le hn) (by rw [hla, hn8]) rfl
  rwa [hla] at hbridge

/-- With LEN_A = LEN_B = n within the capacity and no whole number of words, LEN_A is the first invalid
length (43_width_conversion R193). -/
theorem bridgeVerdict_withLen_of_mod_ne {s : State} {n : Nat} (hc : s.cfg.Legal)
    (hn : n ≤ s.cfg.maxBytes) (hn8 : n % 8 ≠ 0) :
    bridgeVerdict (s.withLen n) = raise .invalidLength .a := by
  have hla : (s.withLen n).la = n := la_withLen hc hn
  exact bridgeVerdict_of_la_mod_ne (hla.trans_le hn) (hla.trans_le hn) (by rwa [hla])

/-- Settles O26: n bytes and n/8 words are the same bits, so the three verdicts are one count. The bytes
need not be written: the runs start from one state, so they draw the same free values. -/
theorem conversionRoundTrip : Obligations.ConversionRoundTrip := by
  intro s u v n hz hc hn _ _
  have hbyte : distVerdict .byte (s.withLen n) = succeed (hamming s.aByte s.bByte (8 * n)) [] :=
    distVerdict_withLen hc ((Nat.mul_one n).trans_le hn)
  refine ⟨fun hn8 => ?_, fun hn8 => ?_⟩
  · have hquad : distVerdict .quad (s.withLen (n / 8)) =
        succeed (hamming s.aByte s.bByte (8 * n)) [] := by
      have hbits : Width.quad.bits * (n / 8) = 8 * n := by simp only [Width.bits]; omega
      rw [distVerdict_withLen hc ((Nat.div_mul_le_self n 8).trans hn), hbits]
    exact ⟨_, _, _, exec_of_verdictOf hz (bridgeVerdict_withLen hc hn hn8),
      exec_of_verdictOf hz hbyte, exec_of_verdictOf hz hquad, rfl, rfl, rfl, rfl, rfl⟩
  · exact ⟨_, _, exec_of_verdictOf hz (bridgeVerdict_withLen_of_mod_ne hc hn hn8),
      exec_of_verdictOf hz hbyte, rfl, rfl⟩

end Sys2Proof.Machine
end

section
/-!
The command errors (60_exceptions R211 to R217): a command's verdict is the chain of its checks in the order
of R217, and the completion of an illegal word (R215).
-/

namespace Sys2Proof.Machine

/-- The first cause of a list is the first check of a chain of checks (60_exceptions R217). -/
theorem elim_firstCause_cons (holds : Bool) (cause : ErrCode × Side)
    (rest : List (Bool × ErrCode × Side)) (v : Verdict) (f : ErrCode × Side → Verdict) :
    (firstCause ((holds, cause) :: rest)).elim v f =
      if holds = true then f cause else (firstCause rest).elim v f := by
  cases holds <;> rfl

/-- A command raises its first cause, and succeeds where it has none: its causes are its checks, in the
order it makes them (60_exceptions R217). -/
theorem verdictOf_eq_firstCause (s : State) (i : Instr) :
    ∃ n wr, verdictOf s i =
      (firstCause (errorCauses s i)).elim (succeed n wr) fun cause => raise cause.1 cause.2 := by
  cases i with
  | popcnt8 | popcnt64 | dist32B u | dist4Q u | dist8Q u => exact ⟨_, [], rfl⟩
  | distB u =>
    refine ⟨distance .byte s.aByte s.bByte s.la, [], ?_⟩
    simp only [verdictOf, distVerdict, capacity_byte, errorCauses, elim_firstCause_cons,
      decide_eq_true_eq]
    rfl
  | distQ u =>
    refine ⟨distance .quad s.aByte s.bByte s.la, [], ?_⟩
    simp only [verdictOf, distVerdict, errorCauses, elim_firstCause_cons, decide_eq_true_eq]
    rfl
  | distB2Q u =>
    refine ⟨sumBelow (fun k => popcount 64 (toWord s.aByte k ^^^ toWord s.bByte k)) (s.la / 8),
      [], ?_⟩
    simp only [verdictOf, bridgeVerdict, errorCauses, elim_firstCause_cons, decide_eq_true_eq]
    rfl
  | toWords u =>
    refine ⟨s.la / 8, wordWrites s.aByte (s.la / 8), ?_⟩
    simp only [verdictOf, convertVerdict, errorCauses, elim_firstCause_cons, decide_eq_true_eq]
    rfl

theorem verdictOf_of_firstCause {s : State} {i : Instr} {e : ErrCode} {x : Side}
    (h : firstCause (errorCauses s i) = some (e, x)) : verdictOf s i = raise e x := by
  obtain ⟨n, wr, hv⟩ := verdictOf_eq_firstCause s i
  rw [hv, h, Option.elim_some]

theorem verdictOf_of_noCause {s : State} {i : Instr} (h : firstCause (errorCauses s i) = none) :
    ∃ n wr, verdictOf s i = succeed n wr := by
  obtain ⟨n, wr, hv⟩ := verdictOf_eq_firstCause s i
  exact ⟨n, wr, by rw [hv, h, Option.elim_none]⟩

/-- Settles O30: the verdict is the first cause raised, or a success. -/
theorem firstErrorIsReported : Obligations.FirstErrorIsReported := by
  refine fun i s hz => ⟨fun e x h => exec_raised hz (verdictOf_of_firstCause h), fun h => ?_⟩
  obtain ⟨n, wr, hv⟩ := verdictOf_of_noCause h
  exact ⟨_, exec_of_verdictOf hz hv, rfl, rfl⟩

/-- A verdict that reports an error is a `raise` of it (60_exceptions R212). -/
theorem verdictOf_eq_raise_of_err {s : State} {i : Instr} (h : (verdictOf s i).err ≠ .noError) :
    verdictOf s i = raise (verdictOf s i).err (verdictOf s i).eopnd := by
  cases hcause : firstCause (errorCauses s i) with
  | none =>
    obtain ⟨n, wr, hv⟩ := verdictOf_of_noCause hcause
    exact absurd (congrArg Verdict.err hv) h
  | some cause => rw [verdictOf_of_firstCause hcause]; rfl

/-- Settles O31: an error's verdict stores nothing, and a count is at most 8 MAX_BYTES. -/
theorem errorsHaveNoOtherEffect : Obligations.ErrorsHaveNoOtherEffect := by
  intro i s hz hc
  by_cases herr : (verdictOf s i).err = .noError
  · refine ⟨_, exec_of_quiet i s hz, fun h => absurd herr h, fun _ hres => ?_⟩
    have hcount : (verdictOf s i).res.toNat ≤ 8 * s.cfg.maxBytes :=
      (verdictOf_sound s i hc).count herr
    have hones : (verdictOf s i).res.toNat = 2 ^ 64 - 1 := congrArg BitVec.toNat hres
    obtain ⟨-, -, hmax⟩ := hc
    omega
  · obtain ⟨t, hex, hraised⟩ := exec_raised hz (verdictOf_eq_raise_of_err herr)
    refine ⟨t, hex, fun _ => ?_, fun h => absurd (hraised.1.err.symm.trans h) herr⟩
    rwa [hraised.1.err, hraised.1.eopnd]

/-- No verdict of a decoded command is ILLEGAL_COMMAND, whatever the capacity (60_exceptions R215). -/
theorem verdictOf_err_ne_illegalCommand (s : State) (i : Instr) :
    (verdictOf s i).err ≠ .illegalCommand := by
  cases i with
  | distB u => exact (distVerdict_sound .byte s).notIllegal
  | distQ u => exact (distVerdict_sound .quad s).notIllegal
  | distB2Q u => exact (bridgeVerdict_sound s).notIllegal
  | toWords u => exact (convertVerdict_sound s).notIllegal
  | popcnt8 | popcnt64 | dist32B u | dist4Q u | dist8Q u => exact nofun

/-- Settles O7: the completion of an illegal word reads no operand, and no verdict has its code. -/
theorem illegalCommandCompletes : Obligations.IllegalCommandCompletes := by
  refine ⟨fun s rest hm hz ⟨r, hr⟩ => ?_, fun i s hz =>
    ⟨_, exec_of_quiet i s hz, verdictOf_err_ne_illegalCommand s i⟩⟩
  have hstep : step s = finish false (raise .illegalCommand .a) { s with turns := rest } :=
    (step_of_engineMoves hm).trans (completion_of_illegal hr)
  exact ⟨_, hstep.trans (finish_of_quiet _ _ _ hz), completed_complete _ _, fun _ => rfl⟩

end Sys2Proof.Machine
end

section
/-!
Bus errors (60_exceptions R219), idle turns (R228), and the stops of a step (R210, 70_reset_and_hazards R240,
R245).
-/

namespace Sys2Proof.Machine

/-- Below the windows the map lists the seven registers (20_memory R61). -/
theorem target_eq_none_iff_of_lt (c : Config) {off : Nat} (h8 : off % 8 = 0) (h : off < 0x1000) :
    target c off 64 = none ↔ 0x0038 ≤ off := by
  refine ⟨fun hnone => ?_, fun hlo => Option.eq_none_iff_forall_ne_some.mpr fun T hT => ?_⟩
  · by_contra hlt
    obtain rfl | rfl | rfl | rfl | rfl | rfl | rfl : off = 0x000 ∨ off = 0x008 ∨ off = 0x010 ∨
        off = 0x018 ∨ off = 0x020 ∨ off = 0x028 ∨ off = 0x030 := by omega
    all_goals simp at hnone
  · obtain ⟨-, -, hoff⟩ := target_some _ _ _ _ hT
    cases T <;> simp only at hoff <;> omega

/-- From 0x1000 on the map lists the three windows, MAX_BYTES long (20_memory R61). -/
theorem ramTarget_eq_none_iff (c : Config) (off : Nat) :
    ramTarget c off = none ↔ ¬(0x1000 ≤ off ∧ off < 0x1000 + c.maxBytes) ∧
      ¬(0x2000 ≤ off ∧ off < 0x2000 + c.maxBytes) ∧
      ¬(0x3000 ≤ off ∧ off < 0x3000 + c.maxBytes) := by
  unfold ramTarget
  split_ifs <;> simp_all

/-- An aligned 64-bit transaction is refused exactly at an unmapped offset (20_memory R61, R66). -/
theorem target_eq_none_iff_unmapped {c : Config} (hc : c.Legal) {off : Nat} (h8 : off % 8 = 0) :
    target c off 64 = none ↔ Unmapped c.maxBytes off := by
  obtain ⟨-, -, hmax⟩ := hc
  by_cases hlo : off < 0x1000
  · rw [target_eq_none_iff_of_lt c h8 hlo]
    omega
  · rw [target_eq_ramTarget c off h8 (by omega), ramTarget_eq_none_iff]
    omega

/-- The causes of a bus error (60_exceptions R219, 20_memory R64 to R66). -/
theorem target_eq_none_iff {c : Config} (hc : c.Legal) (off bits : Nat) :
    target c off bits = none ↔ bits ≠ 64 ∨ off % 8 ≠ 0 ∨ Unmapped c.maxBytes off := by
  by_cases hbits : bits = 64
  · subst hbits
    by_cases h8 : off % 8 = 0
    · rw [target_eq_none_iff_unmapped hc h8]
      simp only [h8, ne_eq, not_true_eq_false, false_or]
    · exact iff_of_true (target_misaligned c off 64 h8) (.inr (.inl h8))
  · exact iff_of_true (target_width c off bits hbits) (.inl hbits)

/-- A write that reaches a location and answers gets no bus error (60_exceptions R219). -/
theorem hostWrite_replies_of_target {s t : State} {off bits : Nat} {v : Word}
    (hT : target s.cfg off bits ≠ none) (hw : hostWrite off bits v s = .next t) :
    t.replies = .write false :: s.replies := by
  have hkept (T : Target) : (s.writeTarget v T).replies = s.replies := by
    obtain ⟨-, -, -, -, -, -, hreplies, -⟩ := writeTarget_keeps s v T
    exact hreplies
  obtain ⟨hnone, -⟩ | ⟨T, -, -, -, -, he⟩ | ⟨T, -, -, -, -, he⟩ | ⟨T, -, -, he⟩ :=
    hostWrite_cases off bits v s
  · exact absurd hnone hT
  · cases he.symm.trans hw
  · obtain rfl := Host.Outcome.next.inj (he.symm.trans hw)
    exact congrArg _ (hkept T)
  · obtain rfl := Host.Outcome.next.inj (he.symm.trans hw)
    exact congrArg _ (hkept T)

/-- Settles O39: the causes by the address map, and what the port answers with and without a location. -/
theorem busErrorsHaveNoEffect : Obligations.BusErrorsHaveNoEffect := by
  refine fun s off bits v hc => ⟨target_eq_none_iff hc off bits, fun hnone => ?_, fun hsome =>
    ⟨?_, fun t => hostWrite_replies_of_target hsome⟩⟩
  · simp [hostRead, hostWrite, hnone]
  · obtain ⟨T, hT⟩ := Option.ne_none_iff_exists'.mp hsome
    exact ⟨_, hostRead_replies_of_target hT⟩

/-- An Engine turn with BUSY = 0 is used up with nothing done (10_state R40, log 2). -/
theorem engineTurn_of_idle {s : State} (hb : s.busy = false) : engineTurn s = .next s := by
  simp [engineTurn, hb]

/-- A host turn with no statement left is used up with nothing done (60_exceptions R228, log 2). -/
theorem hostTurn_of_script_nil {s : State} (hs : s.script = []) : hostTurn s = .next s := by
  simp [hostTurn, hs]

/-- Settles O9, turn by turn. -/
theorem idleEngineHoldsItsState : Obligations.IdleEngineHoldsItsState := by
  refine fun s rest hb => ⟨fun ht => ?_, fun hs ht => ?_, fun hs ht => ?_⟩
  · have hstep : step s = engineTurn { s with turns := rest } := by simp [step, nextTurn, ht]
    exact hstep.trans (engineTurn_of_idle hb)
  · exact (step_of_hostTurn ht).trans (hostTurn_of_script_nil hs)
  · have hstep : step s = hostTurn s := by simp [step, nextTurn, ht, hb]
    exact hstep.trans (hostTurn_of_script_nil hs)

/-- A step answers, or it is a host statement: no completion stops (60_exceptions R210). -/
theorem step_answers_or_hostMoves (s : State) :
    (∃ t, step s = .next t) ∨
      ∃ h after rest, HostMoves s h after rest ∧
        step s = hostStmt h { s with turns := rest, script := after } := by
  obtain ⟨rest, -, he⟩ | ⟨h, after, rest, hm, he⟩ | ⟨rest, he⟩ := step_cases s
  · obtain ⟨t, hc, -⟩ := completion_answers { s with turns := rest }
    exact .inl ⟨t, he.trans hc⟩
  · exact .inr ⟨h, after, rest, hm, he⟩
  · exact .inl ⟨_, he⟩

/-- A host write answers, or it writes an input while BUSY under the policy `stop` (70_reset_and_hazards
R245). -/
theorem hostWrite_answers_or_fault (off bits : Nat) (v : Word) (s : State) :
    (∃ t, hostWrite off bits v s = .next t) ∨
      (hostWrite off bits v s = .fault .inputWrittenWhileBusy ∧ s.cfg.hazardPolicy = .stop ∧
        s.busy = true ∧ bits = 64 ∧ ∃ T, target s.cfg off 64 = some T ∧ T.isInput = true) := by
  obtain ⟨-, he⟩ | ⟨T, hT, hb, hin, hp, he⟩ | ⟨T, -, -, -, -, he⟩ | ⟨T, -, -, he⟩ :=
    hostWrite_cases off bits v s
  · exact .inl ⟨_, he⟩
  · obtain ⟨rfl, -⟩ := target_some _ _ _ _ hT
    exact .inr ⟨he, hp, hb, rfl, T, hT, hin⟩
  · exact .inl ⟨_, he⟩
  · exact .inl ⟨_, he⟩

/-- A host statement answers, or it is a transaction in reset, or a write of an input while BUSY under
the policy `stop` (70_reset_and_hazards R240, R245). -/
theorem hostStmt_answers_or_stops (h : HostStmt) (s : State) :
    (∃ t, hostStmt h s = .next t) ∨
      (hostStmt h s = .refused .transactionInReset ∧ s.rst = true ∧ ∀ level, h ≠ .rst level) ∨
      (hostStmt h s = .fault .inputWrittenWhileBusy ∧ s.cfg.hazardPolicy = .stop ∧
        s.busy = true ∧ s.rst = false ∧
        ∃ off v T, h = .wr off 64 v ∧ target s.cfg off 64 = some T ∧ T.isInput = true) := by
  obtain ⟨level, -, he⟩ | ⟨hr, he, hne⟩ | ⟨hr, off, bits, v, rfl, he⟩ | ⟨-, x, e, d, sc, -, he⟩ :=
    hostStmt_cases h s
  · exact .inl ⟨_, he⟩
  · exact .inr (.inl ⟨he, hr, hne⟩)
  · obtain ⟨t, hw⟩ | ⟨hw, hp, hb, rfl, T, hT, hin⟩ := hostWrite_answers_or_fault off bits v s
    · exact .inl ⟨t, he.trans hw⟩
    · exact .inr (.inr ⟨he.trans hw, hp, hb, hr, off, v, T, rfl, hT, hin⟩)
  · exact .inl ⟨_, he⟩

/-- The host statements but `rst` are the transactions (30_encoding R104, 20_memory R82). -/
theorem HostStmt.transaction_of_ne_rst {h : HostStmt} (hne : ∀ level, h ≠ .rst level) :
    h = .poll ∨ (∃ off bits, h = .rd off bits) ∨ ∃ off bits v, h = .wr off bits v := by
  cases h with
  | rd off bits => exact .inr (.inl ⟨off, bits, rfl⟩)
  | wr off bits v => exact .inr (.inr ⟨off, bits, v, rfl⟩)
  | poll => exact .inl rfl
  | rst level => exact absurd rfl (hne level)

/-- The outcomes of a step: an answer, and the two stops (60_exceptions R210). -/
theorem step_answers_or_stops (s : State) :
    (∃ t, step s = .next t) ∨
      (step s = .refused .transactionInReset ∧ s.rst = true ∧
        ∃ h after rest, HostMoves s h after rest ∧ ∀ level, h ≠ .rst level) ∨
      (step s = .fault .inputWrittenWhileBusy ∧ s.cfg.hazardPolicy = .stop ∧ s.busy = true ∧
        s.rst = false ∧ ∃ off v T after rest, HostMoves s (.wr off 64 v) after rest ∧
          target s.cfg off 64 = some T ∧ T.isInput = true) := by
  obtain hnext | ⟨h, after, rest, hm, he⟩ := step_answers_or_hostMoves s
  · exact .inl hnext
  obtain ⟨t, hs⟩ | ⟨hs, hr, hne⟩ | ⟨hs, hp, hb, hr, off, v, T, rfl, hT, hin⟩ :=
    hostStmt_answers_or_stops h { s with turns := rest, script := after }
  · exact .inl ⟨t, he.trans hs⟩
  · exact .inr (.inl ⟨he.trans hs, hr, h, after, rest, hm, hne⟩)
  · exact .inr (.inr ⟨he.trans hs, hp, hb, hr, off, v, T, after, rest, hm, hT, hin⟩)

/-- Settles O53, by the outcomes of a step. -/
theorem onlyTheseStops : Obligations.OnlyTheseStops := by
  intro s
  obtain ⟨t, he⟩ | ⟨he, hr, h, after, rest, hm, hne⟩ | ⟨he, hp, hb, hr, hwrite⟩ :=
    step_answers_or_stops s <;> rw [he]
  · exact ⟨nofun, nofun, fun _ _ => ⟨t, rfl⟩⟩
  · refine ⟨nofun, fun r hrefused => ?_, fun _ hr' => by simp [hr] at hr'⟩
    exact ⟨(Host.Outcome.refused.inj hrefused).symm, hr, h, after, rest, hm,
      HostStmt.transaction_of_ne_rst hne⟩
  · refine ⟨fun r hfault => ?_, nofun, fun hp' => by simp [hp] at hp'⟩
    exact ⟨(Host.Outcome.fault.inj hfault).symm, hp, hb, hr, hwrite⟩

end Sys2Proof.Machine
end

section
/-!
A write of an input while BUSY, and the completion after it (70_reset_and_hazards R245).
-/

namespace Sys2Proof.Machine

/-- Under the policy to stop, a write of an input while BUSY is the fault. -/
theorem hostWrite_of_hazard_stop {s : State} {off bits : Nat} {T : Target} (hb : s.busy = true)
    (hT : target s.cfg off bits = some T) (hin : T.isInput = true)
    (hp : s.cfg.hazardPolicy = .stop) (v : Word) :
    hostWrite off bits v s = .fault .inputWrittenWhileBusy := by
  simp [hostWrite, hT, hb, hin, hp]

/-- Under the policy to go on, it takes effect and the hazard is recorded (log 6). -/
theorem hostWrite_of_hazard_goOn {s : State} {off bits : Nat} {T : Target} (hb : s.busy = true)
    (hT : target s.cfg off bits = some T) (hin : T.isInput = true)
    (hp : s.cfg.hazardPolicy = .goOn) (v : Word) :
    hostWrite off bits v s =
      .next ({ s.writeTarget v T with inputHazard := true }.reply (.write false)) := by
  simp [hostWrite, hT, hb, hin, hp]

/-- The inputs are LEN_A, LEN_B, OPERAND and the two signatures. -/
theorem Target.isInput_iff (T : Target) :
    T.isInput = true ↔
      T = .lenA ∨ T = .lenB ∨ T = .operand ∨ (∃ j, T = .aRam j) ∨ ∃ j, T = .bRam j := by
  cases T <;> simp [Target.isInput]

/-- What an unspecified completion writes to RESULT, ERR and EOPND rests on the draw alone. -/
theorem completeUnspecified_congr {s s' : State} (hd : s'.draws = s.draws) (c c' : Bool) :
    (s'.completeUnspecified c').result = (s.completeUnspecified c).result ∧
      (s'.completeUnspecified c').err = (s.completeUnspecified c).err ∧
      (s'.completeUnspecified c').eopnd = (s.completeUnspecified c).eopnd := by
  simp [hd]

/-- An unspecified TOWORDS writes every byte of W_RAM (log 8). -/
theorem lookup_completeUnspecified_ne_none (s : State) {j : Nat} (hj : j < s.cfg.maxBytes) :
    (s.completeUnspecified true).wram.lookup j ≠ none := by
  simp [Memory.lookup_ofBytes, hj]

/-- After an input hazard the Engine's completion step is the unspecified one, which leaves W_RAM alone
for a word that decodes to nothing. -/
theorem completion_of_hazard {s : State} (hz : s.inputHazard = true) :
    ∃ c, (IllegalWord s.cmd → c = false) ∧ completion s = .next (s.completeUnspecified c) := by
  obtain ⟨c, v, hwords, hc, -⟩ := completion_cases s
  refine ⟨c, fun ⟨r, hr⟩ => ?_, hc.trans (finish_of_hazard c v s hz)⟩
  by_contra hne
  obtain ⟨u, hu⟩ := hwords (Bool.eq_true_of_not_eq_false hne)
  cases hr.symm.trans hu

/-- Settles O46: the write by the policy; the completion after it is the unspecified one, of a command
and of an illegal word alike. Its values rest on the draw even where the two command words differ. -/
theorem inputHazard : Obligations.InputHazard := by
  refine ⟨fun s off v T hb hT hin => ⟨fun hp => hostWrite_of_hazard_stop hb hT hin hp v,
    fun hp => hostWrite_of_hazard_goOn hb hT hin hp v⟩, Target.isInput_iff, ?_, ?_, ?_⟩
  · intro i s hz
    refine ⟨_, exec_of_hazard i s hz, rfl, rfl, completeUnspecified_keeps s _, fun hi => ?_,
      fun hi j hj => ?_⟩
    · simp [hi]
    · rw [hi]
      exact lookup_completeUnspecified_ne_none s hj
  · intro i i' s s' hz hz' hd
    obtain ⟨hres, herr, hopnd⟩ := completeUnspecified_congr hd (isToWords i) (isToWords i')
    refine ⟨_, _, exec_of_hazard i s hz, exec_of_hazard i' s' hz', hres, herr, hopnd, ?_⟩
    intro hi hi' hcap
    simp [hi, hi', hd, hcap]
  · intro s s' rest rest' hm hm' hz hz' _ hd
    obtain ⟨c, hillegal, hc⟩ := completion_of_hazard (s := { s with turns := rest }) hz
    obtain ⟨c', -, hc'⟩ := completion_of_hazard (s := { s' with turns := rest' }) hz'
    obtain ⟨hres, herr, hopnd⟩ := completeUnspecified_congr
      (s := { s with turns := rest }) (s' := { s' with turns := rest' }) hd c c'
    refine ⟨_, _, (step_of_engineMoves hm).trans hc, (step_of_engineMoves hm').trans hc',
      hres, herr, hopnd, rfl, rfl, completeUnspecified_keeps _ c, fun hw => ?_⟩
    simp [hillegal hw]

end Sys2Proof.Machine
end

section
/-!
Reads while a command is in flight (70_reset_and_hazards R246, R247).
-/

namespace Sys2Proof.Machine

/-- A read of RESULT while BUSY answers the draw's free value (log 5). -/
theorem hostRead_result_of_busy {s : State} (hb : s.busy = true) :
    (hostRead 0x030 64 s).replies = .read (Config.anyReadWord s.draws) false :: s.replies :=
  hostRead_replies_of_readTarget (target_result _) (by simp [State.readTarget, hb])

/-- A read of W_RAM while a TOWORDS is in flight answers the draw's free value (log 5). -/
theorem hostRead_wRam_of_inFlight {s : State} {k : Nat} (hc : s.cfg.Legal)
    (hk : 8 * k < s.cfg.maxBytes) (hf : s.toWordsInFlight = true) :
    (hostRead (0x3000 + 8 * k) 64 s).replies =
      .read (Config.anyReadWord s.draws) false :: s.replies :=
  hostRead_replies_of_readTarget (target_wRam _ k hc hk) (by simp [State.readTarget, hf])

theorem toWordsInFlight_of_decode {s : State} {u : Unroll} (hb : s.busy = true)
    (hu : decodeWord s.cmd = .ok (.toWords u)) : s.toWordsInFlight = true := by
  simp [State.toWordsInFlight, hb, hu]

theorem toWordsInFlight_of_decode_ne {s : State} (hne : ∀ u, decodeWord s.cmd ≠ .ok (.toWords u)) :
    s.toWordsInFlight = false := by
  cases hdec : decodeWord s.cmd with
  | error r => simp [State.toWordsInFlight, hdec]
  | ok i =>
    cases i with
    | toWords u => exact absurd hdec (hne u)
    | _ => simp [State.toWordsInFlight, hdec]

/-- Settles O47: either read draws a free value, and W_RAM is quiet under another command. -/
theorem busyReadsSayNothing : Obligations.BusyReadsSayNothing := by
  intro s x m k hb hc hk
  refine ⟨?_, fun ⟨u, hu⟩ => ?_, fun hne => ?_⟩
  · exact (hostRead_result_of_busy (s := { s with result := x }) hb).trans
      (hostRead_result_of_busy hb).symm
  · have hf : s.toWordsInFlight = true := toWordsInFlight_of_decode hb hu
    exact (hostRead_wRam_of_inFlight (s := { s with wram := m }) hc hk hf).trans
      (hostRead_wRam_of_inFlight hc hk hf).symm
  · exact hostRead_replies_of_readTarget (target_wRam _ k hc hk)
      (readTarget_wRam_of_quiet (toWordsInFlight_of_decode_ne hne) k)

end Sys2Proof.Machine
end

section
/-!
Reset (70_reset_and_hazards R240 to R243).
-/

namespace Sys2Proof.Machine

/-- Asserting `rst`, and any level driven while it is asserted, is a reset (log 10). -/
theorem hostStmt_rst_of_event {s : State} {level : Bool} (h : level = true ∨ s.rst = true) :
    hostStmt (.rst level) s = .next { s.applyReset with rst := level } := by
  have hev : (level || s.rst) = true := Bool.or_eq_true_iff.mpr h
  simp [hostStmt, State.driveRst, hev]

/-- Driving `rst` low while it is low is no event (log 10). -/
theorem hostStmt_rst_of_low {s : State} (hr : s.rst = false) :
    hostStmt (.rst false) s = .next s := by
  simp [hostStmt, State.driveRst, hr]

/-- STATUS is 0 where each of its fields is (10_state R24). -/
theorem statusWord_eq_zero {s : State} (hb : s.busy = false) (hd : s.done = false)
    (ho : s.overrun = false) (he : s.err = .noError) (hx : s.eopnd = .a) : s.statusWord = 0 := by
  rw [State.statusWord, hb, hd, ho, he, hx]
  rfl

/-- Settles O48: the reset events, the level kept low, the refusals, and the state after reset. -/
theorem resetTakesResetValues : Obligations.ResetTakesResetValues := by
  refine ⟨fun s level hev => ?_, fun s hr => hostStmt_rst_of_low hr, fun s off bits v hr => ?_,
    rfl, statusWord_eq_zero rfl rfl rfl rfl rfl, rfl, rfl, rfl, rfl⟩
  · exact ⟨_, hostStmt_rst_of_event hev, rfl, statusWord_eq_zero rfl rfl rfl rfl rfl, rfl, rfl,
      rfl, rfl, rfl, rfl⟩
  · simp [hostStmt, hr]

/-- Settles O49: reset leaves BUSY = 0, and an idle Engine has no step (10_state R40). -/
theorem resetAbandonsTheCommand : Obligations.ResetAbandonsTheCommand := fun _ _ =>
  ⟨_, hostStmt_rst_of_event (.inl rfl), rfl, rfl, rfl, rfl, rfl, fun _ => ⟨rfl, rfl, rfl⟩,
    fun _ => engineTurn_of_idle rfl⟩

end Sys2Proof.Machine
end
